-- ==== Sys2Proof/Word.lean ====
section
/-! DEFINITION. The words and sequences of HAM74 (spec/00_scope.md R6, R7): bits, symbols, the fixed
widths n = 7, k = 4, r = 3, and bit matrices. A word's bit i is index i of the sequence it carries (D4). -/

namespace Sys2Proof

/-- A bit (R7): `false` is 0 and `true` is 1. -/
abbrev Bit := Bool

/-- One symbol of an operand at the transaction level (R6, decision D3): any integer. -/
abbrev Sym := Int

/-- A finite sequence of symbols of any length, index 0 first (R7, R40). -/
abbrev SymSeq := List Sym

/-- The four data bits `d[0..3]` (R2, R21). -/
abbrev Data := BitVec 4

/-- A 7-bit word: a codeword, a received word or a working copy (R2, R21). -/
abbrev Word7 := BitVec 7

/-- The three syndrome bits `syn[0..2]` (R6, R21). -/
abbrev Syndrome := BitVec 3

/-- A bit position 0..6 (R18, R21). -/
abbrev Position := Fin 7

/-- A request word `REQ`, 11 bits (R43). -/
abbrev ReqWord := BitVec 11

/-- A response word `RSP`, 14 bits (R47). -/
abbrev RspWord := BitVec 14

/-- A matrix of bits: `m[row][col]`, rows and columns numbered from 0 (R7). -/
abbrev BitMatrix (rows cols : Nat) := Vector (BitVec cols) rows

/-- The syndrome-to-position map as a table addressed by `pack(syn)` (R18, R32): `some p` is the
spec's `found p`, `none` is `not_found`. -/
abbrev SynMap := Vector (Option Position) 8

end Sys2Proof
end

