-- ==== Sys2Proof/Config.lean ====
section
/-! DEFINITION. What an instance of HAM74 fixes before its first transaction (spec/00_scope.md R6): the
shape of the pair (G, H) and the open parameter LATENCY. The decided values of G and H and the validity
condition stand in Machine/Construction.lean, which a later repair may mend. -/

namespace Sys2Proof

/-- A pair of constants with the dimensions of R72: G is 4 by 7, H is 3 by 7. Nothing here says that the
pair is valid; `ValidCodec` does. -/
structure Codec where
  /-- The generator matrix G (R14). -/
  g : BitMatrix 4 7
  /-- The parity-check matrix H (R16). -/
  h : BitMatrix 3 7
deriving DecidableEq, Repr

/-- The open parameter LATENCY (R6, R147, decision D9), the time from request to response. It has no
value in the model and no definition reads it: "no rule of this spec depends on it". -/
opaque Config.latency : Nat

end Sys2Proof
end

