-- ==== Sys2Proof/Machine/Gf2.lean ====
section
/-! DEFINITION. GF(2) arithmetic and the vector primitives (spec/40_gf2_arithmetic.md R60 to R66). Each is
written as the spec defines it, by integer sums and a remainder modulo 2. -/

namespace Sys2Proof.Machine

/-- The remainder of a non-negative integer on division by 2, as a bit (R63). -/
def mod2 (n : Nat) : Bit := n % 2 == 1

/-- `a xor b = (a + b) mod 2`, addition in GF(2) (R60). -/
def gfAdd (a b : Bit) : Bit := mod2 (a.toNat + b.toNat)

/-- `a and b = (a * b) mod 2`, multiplication in GF(2) (R61). -/
def gfMul (a b : Bit) : Bit := mod2 (a.toNat * b.toNat)

/-- `flip(b) = 1 - b` (R62). -/
def flipBit (b : Bit) : Bit := mod2 (1 - b.toNat)

/-- The word whose bit i is `f i` (R7, R42). -/
def bitsOf : (n : Nat) → (Fin n → Bit) → BitVec n
  | 0, _ => 0#0
  | n + 1, f => BitVec.cons (f (Fin.last n)) (bitsOf n fun i => f i.castSucc)

/-- `dot2(a, b)`: the integer sum of the products `a[i] * b[i]`, modulo 2 (R63). -/
def dot2 {n : Nat} (a b : BitVec n) : Bit :=
  mod2 ((List.finRange n).map fun i => a[i].toNat * b[i].toNat).sum

/-- `col_j(M)`, the column j of a matrix as a sequence (R7). -/
def column {r c : Nat} (m : BitMatrix r c) (j : Fin c) : BitVec r := bitsOf r fun i => m[i][j]

/-- Vector times matrix, `(d * M)[j] = dot2(d, col_j(M))` (R64). -/
def vecMat {r c : Nat} (d : BitVec r) (m : BitMatrix r c) : BitVec c :=
  bitsOf c fun j => dot2 d (column m j)

/-- Matrix times vector, `(M * v)[r] = dot2(M[r], v)` (R64). -/
def matVec {r c : Nat} (m : BitMatrix r c) (v : BitVec c) : BitVec r :=
  bitsOf r fun i => dot2 m[i] v

/-- The word with `w[p]` replaced by `1 - w[p]` and every other bit as it was (R62, R103). -/
def flipAt {n : Nat} (w : BitVec n) (p : Fin n) : BitVec n :=
  bitsOf n fun j => if j = p then flipBit w[j] else w[j]

/-- `e_p`, the word with a single 1 at index p (R65). -/
def unitAt {n : Nat} (p : Fin n) : BitVec n := bitsOf n fun j => decide (j = p)

/-- The number of 1s in a word: the weight of R86 and of the error patterns of R107. -/
def weight {n : Nat} (w : BitVec n) : Nat := ((List.finRange n).map fun i => w[i].toNat).sum

end Sys2Proof.Machine
end

