-- ==== Sys2Proof/Machine/Construction.lean ====
section
/-! DEFINITION. Construction of the constants (spec/41_construction.md R70 to R76): the validity condition
of a pair (G, H), the type of valid pairs, the decided pair (spec/10_state.md R15, R17) and MAP, built from
H's columns. Construction is elaboration: nothing here is a step of the machine. -/

namespace Sys2Proof

/-- R73 item 2: G is systematic, `G = [I4 | P]` (R14). -/
abbrev Codec.Systematic (c : Codec) : Prop :=
  ∀ i j : Fin 4, c.g[i][j.val] = decide (i = j)

/-- R73 item 3: `H * G^T = 0`, that is `dot2(H[r], G[i]) = 0` for every r and i (R16). -/
abbrev Codec.Orthogonal (c : Codec) : Prop :=
  ∀ (r : Fin 3) (i : Fin 4), Machine.dot2 c.h[r] c.g[i] = false

/-- R73 item 4: the seven columns of H are pairwise different and none is `[0,0,0]`. -/
abbrev Codec.ColumnsDistinct (c : Codec) : Prop :=
  (∀ j : Position, Machine.column c.h j ≠ 0#3) ∧
    ∀ j k : Position, Machine.column c.h j = Machine.column c.h k → j = k

/-- The validity condition of R73. Its item 1, the dimensions of R72, is the type `Codec`. -/
abbrev Codec.Valid (c : Codec) : Prop :=
  c.Systematic ∧ c.Orthogonal ∧ c.ColumnsDistinct

/-- A valid pair. "The argument type carries a proof of rule R73, so that no operation is ever evaluated
under an invalid pair" (R74): the operations take this type, never a bare `Codec`. -/
structure ValidCodec where
  /-- The pair (G, H). -/
  codec : Codec
  /-- The proof of R73. -/
  valid : codec.Valid

namespace Machine

/-- A row of seven bits, written index 0 first as the spec prints it. -/
def rowOf (l : List Nat) : Word7 := bitsOf 7 fun j => l.getD j 0 == 1

/-- The decided generator matrix G (R15, decision D1). -/
def decidedG : BitMatrix 4 7 :=
  #v[rowOf [1, 0, 0, 0, 1, 1, 0],
     rowOf [0, 1, 0, 0, 1, 1, 1],
     rowOf [0, 0, 1, 0, 1, 0, 1],
     rowOf [0, 0, 0, 1, 0, 1, 1]]

/-- The decided parity-check matrix H (R17, decision D2). -/
def decidedH : BitMatrix 3 7 :=
  #v[rowOf [1, 1, 1, 0, 1, 0, 0],
     rowOf [1, 1, 0, 1, 0, 1, 0],
     rowOf [0, 1, 1, 1, 0, 0, 1]]

/-- The decided pair satisfies R73 (R75): the build-time obligation that R74 asks to be asserted. -/
theorem decided_valid : Codec.Valid ⟨decidedG, decidedH⟩ := by decide

/-- The decided pair, the one that `exec` runs. -/
def decided : ValidCodec := ⟨⟨decidedG, decidedH⟩, decided_valid⟩

/-- One turn of the loop of R71: `MAP(col_j(H)) <- found j`. -/
def mapColumn (h : BitMatrix 3 7) (m : SynMap) (j : Position) : SynMap :=
  m.set (column h j).toNat (some j) (column h j).isLt

/-- MAP (R18, R71): the loop over the columns 0 to 6 of H, every pattern not made a key being
`not_found`. It takes a valid pair, so the seven keys are distinct and the order of the loop does not
matter; what the loop would do with a repeated key is undefined (N4, U4) and is never evaluated. -/
def buildMap (c : ValidCodec) : SynMap :=
  (List.finRange 7).foldl (mapColumn c.codec.h) (Vector.replicate 8 none)

end Machine

end Sys2Proof
end

