-- ==== Sys2Proof/Machine/Syndrome.lean ====
section
/-! DEFINITION. The internal functions SYNDROME and LOOKUP (spec/43_syndrome_lookup.md R90, R93). No request
asks for either alone (R97). -/

namespace Sys2Proof.Machine

/-- SYNDROME, `syn = H * v` (R90, R101). -/
def syndrome (h : BitMatrix 3 7) (v : Word7) : Syndrome := matVec h v

/-- LOOKUP, `MAP(s)`, an exact match of all three bits: `some p` is `found p`, `none` is `not_found`
(R93). The table is addressed by `pack(s)` (R32). It is total on every map, so that the branch
`UncorrectableError` is specified for a map that lacks a key (R103, R109). -/
def lookup (m : SynMap) (s : Syndrome) : Option Position := m[s.toNat]'s.isLt

end Sys2Proof.Machine
end

