-- ==== Sys2Proof/Syntax.lean ====
section
/-! DEFINITION. Requests and responses as values (spec/30_encoding.md R40): the two operations of
spec/opcode_table.json with their operands, the statuses, the errors and the responses. -/

namespace Sys2Proof

/-- A request of layer T (R40), one constructor per row of spec/opcode_table.json. The operand may have
any length and any integer symbols: an ill-formed operand is still a request. -/
inductive Instr where
  /-- `ENCODE(v)` (R80). -/
  | encode (v : SymSeq)
  /-- `DECODE(v)` (R100). -/
  | decode (v : SymSeq)
deriving DecidableEq, Repr

/-- Which of the two operations: the `op` field of `REQ` (R43, R45). -/
inductive Op where
  /-- `op = 0`. -/
  | encode
  /-- `op = 1`. -/
  | decode
deriving DecidableEq, Repr

/-- The status of a successful DECODE (R40, R104). -/
inductive Status where
  /-- `NoError`: the syndrome is zero (R102). -/
  | noError
  /-- `ErrorCorrected(p)`: bit p of the working copy was flipped (R103). -/
  | errorCorrected (p : Position)
  /-- `UncorrectableError`: the syndrome is non-zero and no key of MAP (R103, R123). -/
  | uncorrectableError
deriving DecidableEq, Repr

/-- The two errors (R40, R120). They carry nothing but their name. -/
inductive CodecError where
  /-- `InvalidLength` (R121). -/
  | invalidLength
  /-- `InvalidBit` (R122). -/
  | invalidBit
deriving DecidableEq, Repr

/-- A response of layer T (R40). -/
inductive Response where
  /-- `EncOk(c)`. -/
  | encOk (c : Word7)
  /-- `DecOk(data, status)`. -/
  | decOk (data : Data) (status : Status)
  /-- `Err(e)`. -/
  | err (e : CodecError)
deriving DecidableEq, Repr

/-- The operation a request asks for. -/
def Instr.op : Instr → Op
  | .encode _ => .encode
  | .decode _ => .decode

/-- The operand of a request. -/
def Instr.operand : Instr → SymSeq
  | .encode v => v
  | .decode v => v

/-- The request for an operation on an operand. -/
def Instr.ofOp : Op → SymSeq → Instr
  | .encode, v => .encode v
  | .decode, v => .decode v

/-- The number of symbols an operation expects: 4 for ENCODE, 7 for DECODE (R34, R121). -/
def Op.arity : Op → Nat
  | .encode => 4
  | .decode => 7

/-- The kinds of response a request can get (R40): ENCODE is never answered with `DecOk`, nor DECODE
with `EncOk`. -/
abbrev Response.Answers : Response → Op → Prop
  | .encOk _, op => op = .encode
  | .decOk _ _, op => op = .decode
  | .err _, _ => True

end Sys2Proof
end

