-- ==== Sys2Proof/Machine/Flags.lean ====
section
/-! DEFINITION. HAM74 has no flags and no condition codes (spec/10_state.md R12). What takes their place is
the status of a DECODE, which is part of one response: it is computed here (spec/44_decode.md R104). -/

namespace Sys2Proof.Machine

/-- The status (R104): the zero test comes first and does not consult MAP (R95, R102); a non-zero
syndrome is looked up, and one that is no key of MAP is `UncorrectableError` (R103, R123). -/
def statusOf (m : SynMap) (syn : Syndrome) : Status :=
  if syn = 0#3 then .noError
  else
    match lookup m syn with
    | some p => .errorCorrected p
    | none => .uncorrectableError

end Sys2Proof.Machine
end

