-- ==== Sys2Proof/WellFormed.lean ====
section
/-! DEFINITION. Two checks on requests. `Instr.WellFormed`: the request has a request word (R51), which
is what the encoder needs. `Instr.OperandOk`: the operand is what the operation asks for (R80, R100),
which decides between a result and an error; a request that fails it is still served. -/

namespace Sys2Proof

/-- The symbol is one of the bits 0 and 1 (R7). -/
abbrev IsBit (x : Sym) : Prop := x = 0 ∨ x = 1

/-- The request can be put in `REQ`: at most 7 symbols, every one a bit (R51). -/
abbrev Instr.WellFormed (i : Instr) : Prop :=
  i.operand.length ≤ 7 ∧ ∀ x ∈ i.operand, IsBit x

/-- The operand is well-formed for its operation: exactly 4 or 7 symbols, every one a bit (R80, R100). -/
abbrev Instr.OperandOk (i : Instr) : Prop :=
  i.operand.length = i.op.arity ∧ ∀ x ∈ i.operand, IsBit x

end Sys2Proof
end

