-- ==== Sys2Proof/Decode.lean ====
section
/-! DEFINITION. The request word (spec/30_encoding.md R42 to R46, R51, R53): the decoder from `REQ` to a
request, total on the 2048 words; the reading of a number as a request word, which rejects by name; and
after them the encoder from a request to its word. -/

namespace Sys2Proof

/-! ## Decoder -/

/-- The `op` field, `REQ[10]`: 0 is ENCODE, 1 is DECODE (R43, R45). -/
def reqOp (q : ReqWord) : Op := if q[10] then .decode else .encode

/-- The `len` field, `REQ[9:7]`, unsigned (R43). -/
def reqLen (q : ReqWord) : Nat := (q.extractLsb' 7 3).toNat

/-- The `payload` field, `REQ[6:0]` (R43). -/
def reqPayload (q : ReqWord) : Word7 := q.extractLsb' 0 7

/-- A bit as a symbol. -/
def symOfBit (b : Bit) : Sym := if b then 1 else 0

/-- Operand assembly (R44): `[REQ[0], ..., REQ[len-1]]`; payload bits at and above `len` are ignored. -/
def reqOperand (q : ReqWord) : SymSeq :=
  (List.range (reqLen q)).map fun i => symOfBit ((reqPayload q).getLsbD i)

/-- The request a word carries (R43 to R45). Every word carries one. -/
def decodeReq (q : ReqWord) : Instr := Instr.ofOp (reqOp q) (reqOperand q)

/-- Why a number is no request word. -/
inductive DecodeError where
  /-- It does not fit the 11 bits of `REQ` (R43, R53): no port carries it. -/
  | widerThanReq
deriving DecidableEq, Repr

/-- The request word in the low `nbits` bits of a number, every bit above them 0. A number that does not
fit 11 bits is rejected by name: `REQ` has one length (R53). -/
def reqOfNat (nbits w : Nat) : Except DecodeError ReqWord :=
  let x := w % 2 ^ nbits
  if x < 2 ^ 11 then .ok (BitVec.ofNat 11 x) else .error .widerThanReq

/-- The request in a number: the whole decoder, total on every number. -/
def decodeWord (nbits w : Nat) : Except DecodeError Instr :=
  match reqOfNat nbits w with
  | .ok q => .ok (decodeReq q)
  | .error e => .error e

/-- The request the decoder reads from an instruction whose bits are `w`, numbered as
spec/opcode_table.json numbers them (bit 0 is `REQ[0]`); `none` where it refuses. -/
def decodeTableWord (nbits w : Nat) : Option Instr :=
  match decodeWord nbits w with
  | .ok i => some i
  | .error _ => none

/-! ## Encoder -/

/-- `pack(v)`, the unsigned number `sum over i of v[i] * 2^i` of a sequence of bits (R7). -/
def pack : SymSeq → Nat
  | [] => 0
  | x :: xs => x.toNat + 2 * pack xs

/-- The `op` bit of an operation (R45). -/
def opBit : Op → BitVec 1
  | .encode => 0#1
  | .decode => 1#1

/-- The request word of a request (R43, R44), with the payload bits at and above `len` zero; `none` where
the request has no word (R51). -/
def encodeReq (i : Instr) : Option ReqWord :=
  if i.WellFormed then
    some (opBit i.op ++ BitVec.ofNat 3 i.operand.length ++ BitVec.ofNat 7 (pack i.operand))
  else none

end Sys2Proof
end

