-- ==== Sys2Proof/Machine/State.lean ====
section
/-! DEFINITION. The machine's state. The spec gives HAM74 no state at all (spec/10_state.md R10 to R13,
R19): no register, no pc, no flag, no memory, and the constants are configuration. What stands here are
the two ends of the host interface that a step reads and writes (spec/70_reset_and_hazards.md R148, R149):
the requests still to be served and the responses delivered. They are the model's own (log entry 1). -/

namespace Sys2Proof.Machine

/-- One request as the host issues it. -/
inductive Submission where
  /-- A request of layer T (R40): any operand, also one that no request word carries (R51). -/
  | call (i : Instr)
  /-- A request word of layer W on the port `req` (R43). -/
  | word (q : ReqWord)
deriving DecidableEq, Repr

/-- The state of a run. Plain data. -/
structure State where
  /-- The requests the host has still to issue, the next one first: the rest of its program (R148). -/
  pending : List Submission
  /-- The responses delivered so far, in request order: the observation of the run (R149). -/
  responses : List Response
deriving DecidableEq, Repr

/-- The state after reset: no request issued and no response delivered. Reset does nothing to the block,
which has nothing to reset (R22, R140); the two fields are the host's (log entry 2). -/
def State.reset : State := { pending := [], responses := [] }

/-- Why the machine stops. The block has no fault of its own: its errors are responses (R129). -/
inductive Fault where
  /-- Raised by `step` alone, when no request is pending: the run is at its end (R149) and the block has
  no step other than to serve a request (R144). Safe: the model stops where the block would idle. -/
  | runEnded
deriving DecidableEq, Repr

/-- Why an instruction has no meaning. -/
inductive Refusal where
  /-- Raised by the arms of `exec` that have no meaning yet: none is left. Safe: the model stops where
  the block would answer. -/
  | notModelled (mnemonic : String)
deriving DecidableEq, Repr

/-- The outcome of a step or of an instruction. -/
abbrev Outcome := Host.Outcome State Fault Refusal

end Sys2Proof.Machine
end

