-- ==== Sys2Proof/Machine/Ops.lean ====
section
/-! DEFINITION. The two shared operations: ending a transaction with an error and delivering a response.
The block has no registers and no memory to operate on. -/

namespace Sys2Proof.Machine

/-- `raise E` (R8, R124): the transaction ends with the response `Err(E)`, "that response is the whole
effect". Nothing is saved, no mode changes and control goes nowhere, and there is no return from it
(R125): this is all that stands for taking an exception. -/
def raise (e : CodecError) : Response := .err e

/-- Delivering a response to the host: it is appended to the observation of the run (R149) and is the
whole effect of a transaction, which writes no state of the block (R35). -/
def deliver (r : Response) (s : State) : Outcome :=
  .next { s with responses := s.responses ++ [r] }

end Sys2Proof.Machine
end

