-- ==== Sys2Proof/Machine/Operands.lean ====
section
/-! DEFINITION. The one operand form: a sequence of symbols, its two checks (spec/60_exceptions.md R121,
R122, R126) and its reading as a word (spec/00_scope.md R7). -/

namespace Sys2Proof.Machine

/-- The bit check on one symbol: it is 0 or 1. Every other integer is refused alike (R122). -/
def symbolIsBit (x : Sym) : Bool := x == 0 || x == 1

/-- The bit a checked symbol stands for. -/
def bitOfSym (x : Sym) : Bit := x == 1

/-- The word of a checked sequence: bit i is symbol i (R7). -/
def wordOfSeq (n : Nat) (v : SymSeq) : BitVec n := bitsOf n fun i => bitOfSym (v.getD i 0)

/-- A word as the sequence of its bits, index 0 first (R7): what the host reads in a result and passes
to the next request. -/
def seqOfWord {n : Nat} (w : BitVec n) : SymSeq := (List.finRange n).map fun i => symOfBit w[i]

/-- The operand checks of R80 and R100, in their order (decision D8): first the length, before any symbol
is examined, then that every symbol is a bit. A checked operand goes on to `k` as a word. -/
def withOperand (n : Nat) (v : SymSeq) (k : BitVec n → Response) : Response :=
  if v.length ≠ n then raise .invalidLength
  else if v.all symbolIsBit then k (wordOfSeq n v)
  else raise .invalidBit

end Sys2Proof.Machine
end

