-- ==== Sys2Proof/Machine/Decoder.lean ====
section
/-! DEFINITION. DECODE (spec/44_decode.md R100 to R106). -/

namespace Sys2Proof.Machine

/-- Step 3, CORRECT (R103): with `ErrorCorrected(p)` exactly bit p of the working copy is flipped;
otherwise the working copy is the received word. -/
def correct (st : Status) (v : Word7) : Word7 :=
  match st with
  | .noError => v
  | .errorCorrected p => flipAt v p
  | .uncorrectableError => v

/-- Step 4 (R105): `data = w[0..3]`, the first four bits of the working copy. -/
def dataOf (w : Word7) : Data := w.extractLsb' 0 4

/-- The four steps of R100 on a checked word, for any H and any map: syndrome (R101), status (R102, R104),
correction (R103), output (R105). -/
def decodeCore (h : BitMatrix 3 7) (m : SynMap) (v : Word7) : Response :=
  let st := statusOf m (syndrome h v)
  .decOk (dataOf (correct st v)) st

/-- DECODE under a valid pair and the map built from it (R100): the checks, then the four steps. -/
def decodeOp (c : ValidCodec) (v : SymSeq) : Response :=
  withOperand 7 v fun r => decodeCore c.codec.h (buildMap c) r

/-- The meaning of DECODE: the response of R100 with the decided pair is delivered, and nothing else
happens. -/
def execDecode (v : SymSeq) (s : State) : Outcome := deliver (decodeOp decided v) s

end Sys2Proof.Machine
end

