-- ==== Sys2Proof/Machine/Encoder.lean ====
section
/-! DEFINITION. ENCODE (spec/42_encode.md R80). -/

namespace Sys2Proof.Machine

/-- The codeword of a data vector, `c = d * G` (R80, R81). -/
def codeword (c : ValidCodec) (d : Data) : Word7 := vecMat d c.codec.g

/-- ENCODE under a valid pair (R80): the checks, then the codeword. -/
def encodeOp (c : ValidCodec) (v : SymSeq) : Response :=
  withOperand 4 v fun d => .encOk (codeword c d)

/-- The meaning of ENCODE: the response of R80 with the decided G is delivered, and nothing else
happens. -/
def execEncode (v : SymSeq) (s : State) : Outcome := deliver (encodeOp decided v) s

end Sys2Proof.Machine
end

