-- ==== Sys2Proof/Machine/Dispatch.lean ====
section
/-! DEFINITION. The dispatch from an instruction to its meaning: one arm per row of spec/opcode_table.json. -/

namespace Sys2Proof.Machine

def exec (i : Instr) (s : State) : Host.Outcome State Fault Refusal :=
  match i with
  | .encode v => Sys2Proof.Machine.execEncode v s
  | .decode v => Sys2Proof.Machine.execDecode v s

end Sys2Proof.Machine
end

