-- ==== Sys2Proof/Machine/Transaction.lean ====
section
/-! DEFINITION. A transaction as a pure function from a request to its response (spec/00_scope.md R9,
spec/70_reset_and_hazards.md R148), for every valid pair; and the request that a submission stands for. -/

namespace Sys2Proof.Machine

/-- The response to a request under a valid pair: R80 or R100 according to the kind of the request. It
depends on the request and the constants alone (R9). -/
def serve (c : ValidCodec) (i : Instr) : Response :=
  match i with
  | .encode v => encodeOp c v
  | .decode v => decodeOp c v

/-- The request the host issues: a layer-T request as it is, a request word decoded (R40, R45, R52). -/
def requestOf : Submission → Instr
  | .call i => i
  | .word q => decodeReq q

end Sys2Proof.Machine
end

