-- ==== Sys2Proof/Machine/Step.lean ====
section
/-! DEFINITION. One step of the machine: to serve the next pending request (spec/70_reset_and_hazards.md
R144, R145), and the placing of a request word where the step finds it. -/

namespace Sys2Proof.Machine

/-- One step (R144): the next pending request is taken and served, one atomic transaction from the request
to its response (R145). With none pending the run has ended (R149). -/
def step (s : State) : Host.Outcome State Fault Refusal :=
  match s.pending with
  | [] => .fault .runEnded
  | sub :: rest => exec (requestOf sub) { s with pending := rest }

/-- `s` with the request word in `w` presented on the port `req` as the host's next request. The block
fetches nothing (R11, R39): its next instruction is the next request (R148). A number that is no request
word places nothing. -/
def State.withFetchWord (s : State) (nbits w : Nat) : State :=
  match reqOfNat nbits w with
  | .ok q => { s with pending := .word q :: s.pending }
  | .error _ => s

end Sys2Proof.Machine
end

