-- ==== Sys2Proof/Machine/Response.lean ====
section
/-! DEFINITION. The response word (spec/30_encoding.md R47 to R50): its encoding, the words that are never
produced, and a decoder that refuses those by name. -/

namespace Sys2Proof.Machine

/-! ## Encoder -/

/-- The `err` code of an error (R47, R120). -/
def errCode : CodecError → BitVec 2
  | .invalidLength => 1#2
  | .invalidBit => 2#2

/-- The code of a status, in the field `status` and on `dec_status` (R47, R49). -/
def statusCode : Status → BitVec 2
  | .noError => 0#2
  | .errorCorrected _ => 1#2
  | .uncorrectableError => 2#2

/-- The code of a position, in the field `pos` and on `dec_pos`: p when the status is
`ErrorCorrected(p)`, 7 in every other case (R47, R49). -/
def posCode : Status → BitVec 3
  | .noError => 7#3
  | .errorCorrected p => BitVec.ofNat 3 p.val
  | .uncorrectableError => 7#3

/-- A response word from its four fields (R47). -/
def rspOfFields (err status : BitVec 2) (pos : BitVec 3) (out : Word7) : RspWord :=
  err ++ status ++ pos ++ out

/-- The response word of a response (R48). `DecOk` fills `out[6:4]` with zeros; `Err` has `out = 0`. -/
def encodeRsp : Response → RspWord
  | .encOk c => rspOfFields 0#2 0#2 7#3 c
  | .decOk d st => rspOfFields 0#2 (statusCode st) (posCode st) (d.setWidth 7)
  | .err e => rspOfFields (errCode e) 0#2 7#3 0#7

/-- The words a host on the port `rsp` sees over a run: the responses in request order (R149), each as its
word. -/
def State.rspWords (s : State) : List RspWord := s.responses.map encodeRsp

/-! ## Decoder -/

/-- The `err` field, `RSP[13:12]` (R47). -/
def rspErr (w : RspWord) : BitVec 2 := w.extractLsb' 12 2

/-- The `status` field, `RSP[11:10]` (R47). -/
def rspStatus (w : RspWord) : BitVec 2 := w.extractLsb' 10 2

/-- The `pos` field, `RSP[9:7]` (R47). -/
def rspPos (w : RspWord) : BitVec 3 := w.extractLsb' 7 3

/-- The `out` field, `RSP[6:0]` (R47). -/
def rspOut (w : RspWord) : Word7 := w.extractLsb' 0 7

/-- Why a response word is refused: the words of R50, by name, and two that R48 gives to no response of
the operation asked for. -/
inductive RspError where
  /-- `err = 3` (R47, R50). -/
  | errUnused
  /-- `status = 3` (R47, R50). -/
  | statusUnused
  /-- `err` is not 0 and `status` is not 0, `pos` is not 7 or `out` is not 0 (R50). -/
  | errWithResult
  /-- `status = 1` with `pos = 7` (R50). -/
  | correctedWithoutPos
  /-- `status` is not 1 and `pos` is not 7 (R50). -/
  | posWithoutCorrected
  /-- An answer to ENCODE with a `status` other than 0 (R48, log entry 9). -/
  | encodeWithStatus
  /-- An answer to DECODE with a bit of `out[6:4]` set (R48, log entry 9). -/
  | decodeWideOut
  /-- `err = 2` in answer to a request word, which carries only bits (R50, R51). -/
  | invalidBitFromWord
  /-- `status = 2`, which no valid configuration gives (R50, R109). -/
  | uncorrectableUnderValid
deriving DecidableEq, Repr

/-- The name under which a word is refused whatever the request was (R50), if it is. -/
def rspExcluded (w : RspWord) : Option RspError :=
  if rspErr w = 3#2 then some .errUnused
  else if rspStatus w = 3#2 then some .statusUnused
  else if rspErr w ≠ 0#2 ∧ (rspStatus w ≠ 0#2 ∨ rspPos w ≠ 7#3 ∨ rspOut w ≠ 0#7) then
    some .errWithResult
  else if rspStatus w = 1#2 ∧ rspPos w = 7#3 then some .correctedWithoutPos
  else if rspStatus w ≠ 1#2 ∧ rspPos w ≠ 7#3 then some .posWithoutCorrected
  else none

/-- The status in the fields of a word that is not excluded. -/
def statusOfFields (status : BitVec 2) (pos : BitVec 3) : Status :=
  if status = 0#2 then .noError
  else if status = 1#2 then .errorCorrected (Fin.ofNat 7 pos.toNat)
  else .uncorrectableError

/-- The response in a response word, for a host that knows which operation it asked for (R48). -/
def decodeRsp (op : Op) (w : RspWord) : Except RspError Response :=
  match rspExcluded w with
  | some e => .error e
  | none =>
    if rspErr w = 1#2 then .ok (.err .invalidLength)
    else if rspErr w = 2#2 then .ok (.err .invalidBit)
    else
      match op with
      | .encode =>
        if rspStatus w = 0#2 then .ok (.encOk (rspOut w)) else .error .encodeWithStatus
      | .decode =>
        if (rspOut w).extractLsb' 4 3 = 0#3 then
          .ok (.decOk ((rspOut w).extractLsb' 0 4) (statusOfFields (rspStatus w) (rspPos w)))
        else .error .decodeWideOut

/-- The response in the answer to a request WORD under a valid configuration: as `decodeRsp`, and the two
words that can then not appear are refused as well (R50). -/
def decodeRspOfReq (op : Op) (w : RspWord) : Except RspError Response :=
  if rspErr w = 2#2 then .error .invalidBitFromWord
  else if rspStatus w = 2#2 then .error .uncorrectableUnderValid
  else decodeRsp op w

end Sys2Proof.Machine
end

