-- ==== Sys2Proof/Machine/FrontEnd.lean ====
section
/-! DEFINITION. The units ENC, SLE, DEC and FE at their ports (spec/30_encoding.md R41, R49, R52): the XOR
networks, the read-only table and the routing, written from R82, R91, R32, R112 and R52 and not from the
matrices. They are combinational functions of one transaction's operand (R21); a unit that the
transaction does not use has no value here. -/

namespace Sys2Proof.Machine

/-! ## ENC -/

/-- The ports of ENC (R41). -/
structure EncPorts where
  /-- `enc_d[3:0]`, in. -/
  encD : Data
  /-- `enc_c[6:0]`, out. -/
  encC : Word7
deriving DecidableEq, Repr

/-- The output bits of ENC as XOR equations (R82). -/
def encNet (d : Data) : Fin 7 → Bit
  | 0 => d[0]
  | 1 => d[1]
  | 2 => d[2]
  | 3 => d[3]
  | 4 => d[0] ^^ d[1] ^^ d[2]
  | 5 => d[0] ^^ d[1] ^^ d[3]
  | 6 => d[1] ^^ d[2] ^^ d[3]

/-- The unit ENC (R81). -/
def encUnit (encD : Data) : EncPorts := { encD, encC := bitsOf 7 (encNet encD) }

/-! ## SLE -/

/-- The ports of SLE (R41). -/
structure SlePorts where
  /-- `sle_s[2:0]`, in. -/
  sleS : Syndrome
  /-- `sle_hit`, out. -/
  sleHit : Bit
  /-- `sle_pos[2:0]`, out: the position, or 7 when `sle_hit = 0`. -/
  slePos : BitVec 3
deriving DecidableEq, Repr

/-- The read-only table of R32, 8 locations of `hit` and `pos`, addressed by `pack(syn)`. -/
def sleRom : Vector (Bit × BitVec 3) 8 :=
  #v[(false, 7#3), (true, 4#3), (true, 5#3), (true, 0#3),
     (true, 6#3), (true, 2#3), (true, 3#3), (true, 1#3)]

/-- The unit SLE (R94). -/
def sleUnit (sleS : Syndrome) : SlePorts :=
  let cell := sleRom[sleS.toNat]'sleS.isLt
  { sleS, sleHit := cell.1, slePos := cell.2 }

/-! ## DEC -/

/-- The ports of DEC, its nets `dec_syn`, `zero` and `dec_w`, and the SLE inside it (R41, R112). -/
structure DecPorts where
  /-- `dec_r[6:0]`, in. -/
  decR : Word7
  /-- `dec_syn[2:0]`, the syndrome. -/
  decSyn : Syndrome
  /-- The ports of SLE, with `sle_s` wired to `dec_syn`. -/
  sle : SlePorts
  /-- `zero`, 1 when `dec_syn = 0`. -/
  zero : Bit
  /-- `dec_w[6:0]`, the working copy after correction. -/
  decW : Word7
  /-- `dec_d[3:0]`, out. -/
  decD : Data
  /-- `dec_status[1:0]`, out. -/
  decStatus : BitVec 2
  /-- `dec_pos[2:0]`, out. -/
  decPos : BitVec 3
deriving DecidableEq, Repr

/-- The syndrome bits of DEC as XOR equations (R91). -/
def synNet (v : Word7) : Fin 3 → Bit
  | 0 => v[0] ^^ v[1] ^^ v[2] ^^ v[4]
  | 1 => v[0] ^^ v[1] ^^ v[3] ^^ v[5]
  | 2 => v[1] ^^ v[2] ^^ v[3] ^^ v[6]

/-- The unit DEC (R112). -/
def decUnit (decR : Word7) : DecPorts :=
  let decSyn := bitsOf 3 (synNet decR)
  let sle := sleUnit decSyn
  let zero := decide (decSyn = 0#3)
  let decW := bitsOf 7 fun j => decR[j] ^^ (!zero && sle.sleHit && sle.slePos == BitVec.ofNat 3 j.val)
  let decStatus := if zero then 0#2 else if sle.sleHit then 1#2 else 2#2
  { decR, decSyn, sle, zero, decW
    decD := bitsOf 4 fun i => decW[i.val]
    decStatus
    decPos := if decStatus = 1#2 then sle.slePos else 7#3 }

/-! ## FE -/

/-- What FE does with a request (R52). -/
inductive FePath where
  /-- `op = 0` and `len = 4`: `payload[3:0]` is routed to `enc_d`. -/
  | enc (p : EncPorts)
  /-- `op = 1` and `len = 7`: `payload[6:0]` is routed to `dec_r`. -/
  | dec (p : DecPorts)
  /-- Any other `len`. -/
  | mismatch
deriving DecidableEq, Repr

/-- The routing of FE: `len` is compared with 4 or 7 according to `op` (R52). -/
def fePath (req : ReqWord) : FePath :=
  let op := req[10]
  let len := req.extractLsb' 7 3
  if op then
    if len = 7#3 then .dec (decUnit (req.extractLsb' 0 7)) else .mismatch
  else
    if len = 4#3 then .enc (encUnit (req.extractLsb' 0 4)) else .mismatch

/-- The port `rsp` of FE: assembled from `enc_c`, or from `dec_d`, `dec_status`, `dec_pos`; `0x1380` on a
mismatch (R52). -/
def feRsp (req : ReqWord) : RspWord :=
  match fePath req with
  | .enc p => rspOfFields 0#2 0#2 7#3 p.encC
  | .dec p => rspOfFields 0#2 p.decStatus p.decPos (p.decD.setWidth 7)
  | .mismatch => 0x1380#14

end Sys2Proof.Machine
end

