-- ==== Sys2Proof/Machine/Text.lean ====
section
/-! DEFINITION. The textual syntax of a transaction (spec/30_encoding.md R54, decision D12), written as lists
of characters. It is a notation and carries no semantics. DEDUCED: one space between the parts, decimal
numerals, and a reader of requests, which R54 does not spell out (log entry 13). -/

namespace Sys2Proof.Machine

/-- An integer in decimal. -/
def symText : Sym → List Char
  | .ofNat n => Nat.toDigits 10 n
  | .negSucc n => '-' :: Nat.toDigits 10 (n + 1)

/-- A sequence in square brackets with commas, index 0 first. -/
def seqText (v : SymSeq) : List Char :=
  ['['] ++ List.intercalate [','] (v.map symText) ++ [']']

/-- The bits of a word as a sequence, index 0 first. -/
def wordText {n : Nat} (w : BitVec n) : List Char :=
  seqText ((List.finRange n).map fun i => if w[i] then 1 else 0)

/-- A request: `ENCODE [s0,s1,...]` or `DECODE [s0,s1,...]`. -/
def requestText : Instr → List Char
  | .encode v => "ENCODE ".toList ++ seqText v
  | .decode v => "DECODE ".toList ++ seqText v

/-- A status. -/
def statusText : Status → List Char
  | .noError => "NoError".toList
  | .errorCorrected p => "ErrorCorrected(".toList ++ Nat.toDigits 10 p.val ++ [')']
  | .uncorrectableError => "UncorrectableError".toList

/-- The name of an error. -/
def errorText : CodecError → List Char
  | .invalidLength => "InvalidLength".toList
  | .invalidBit => "InvalidBit".toList

/-- A response: `OK codeword=[...]`, `OK data=[...] status=...` or `ERR ...`. -/
def responseText : Response → List Char
  | .encOk c => "OK codeword=".toList ++ wordText c
  | .decOk d st => "OK data=".toList ++ wordText d ++ " status=".toList ++ statusText st
  | .err e => "ERR ".toList ++ errorText e

/-- One line per transaction: the request, an arrow and the response. -/
def transactionText (i : Instr) (r : Response) : List Char :=
  requestText i ++ " -> ".toList ++ responseText r

/-! ## Reading a request -/

/-- The digits of a number read so far, the sign before them, and the symbols before that: the rest of a
sequence up to its closing bracket, which ends the line. -/
def readSymbols : List Char → Bool → Option Nat → SymSeq → Option SymSeq
  | [], _, _, _ => none
  | ch :: rest, neg, num, acc =>
    let done := num.map fun n => acc ++ [if neg then -(n : Int) else (n : Int)]
    if ch.isDigit then readSymbols rest neg (some (num.getD 0 * 10 + (ch.toNat - 48))) acc
    else if ch = '-' then if neg || num.isSome then none else readSymbols rest true none acc
    else if ch = ',' then
      match done with
      | some acc' => readSymbols rest false none acc'
      | none => none
    else if ch = ']' && rest.isEmpty then
      if num.isNone && !neg && acc.isEmpty then some [] else done
    else none

/-- The request a line of the notation writes (R54): the name of an operation, a space and a sequence of
integers of any length in square brackets; `none` for any other line. -/
def readRequest (line : List Char) : Option Instr :=
  if line.take 8 = "ENCODE [".toList then
    (readSymbols (line.drop 8) false none []).map .encode
  else if line.take 8 = "DECODE [".toList then
    (readSymbols (line.drop 8) false none []).map .decode
  else none

end Sys2Proof.Machine
end

