-- ==== Sys2Proof/Safety.lean ====
section
/-! DEFINITION. What counts as a safe run: every response delivered is one that a valid instance of HAM74
can produce, as a value and as a word. -/

namespace Sys2Proof.Machine

/-- A response that a valid instance can produce: a codeword has zero syndrome (R85), no status is
`UncorrectableError` (R109), and the response word is none of the excluded ones (R50). -/
abbrev Producible (c : ValidCodec) (r : Response) : Prop :=
  (∀ w, r = .encOk w → syndrome c.codec.h w = 0#3) ∧
    (∀ d, r ≠ .decOk d .uncorrectableError) ∧ rspExcluded (encodeRsp r) = none

/-- Every response delivered so far is producible under the decided pair. -/
abbrev State.Safe (s : State) : Prop := ∀ r ∈ s.responses, Producible decided r

end Sys2Proof.Machine
end

