-- ==== Sys2Proof/Certificates/Slice0/Obligations.lean ====
section
/-! DEFINITION. The statements about HAM74, each `def Obligations.<Name> : Prop`, taken from the numbered rules
of spec/. None is proved here. A statement over `c : ValidCodec` holds for every valid pair (G, H); one that
names `decidedG`, `decidedH` or `exec` is about the pair the spec decided (R15, R17). -/

open Sys2Proof Sys2Proof.Machine

/-! ## The two operations -/

/-- R80. ENCODE of any operand in any state completes; the three cases of the pseudocode, with the sum of
products of the source's formula written out over the integers. -/
def Obligations.EncodeComputesTheDotProducts : Prop :=
  ∀ (v : SymSeq) (s : State), ∃ r : Response,
    exec (.encode v) s = .next { s with responses := s.responses ++ [r] } ∧
    (v.length ≠ 4 → r = .err .invalidLength) ∧
    (v.length = 4 → (∃ x ∈ v, x ≠ 0 ∧ x ≠ 1) → r = .err .invalidBit) ∧
    (v.length = 4 → (∀ x ∈ v, x = 0 ∨ x = 1) →
      ∃ w : Word7, r = .encOk w ∧
        ∀ j : Fin 7, (w[j]).toInt =
          (v.getD 0 0 * (decidedG[0][j]).toInt + v.getD 1 0 * (decidedG[1][j]).toInt +
            v.getD 2 0 * (decidedG[2][j]).toInt + v.getD 3 0 * (decidedG[3][j]).toInt) % 2)

/-- R100. DECODE of any operand in any state completes; the checks and the four numbered steps of the
pseudocode, MAP being given by its definition in R18 (`MAP(col_p(H)) = found p`). The third case of the
status is the pseudocode's last branch, which R109 says the decided pair never takes. -/
def Obligations.DecodeFollowsTheFourSteps : Prop :=
  ∀ (v : SymSeq) (s : State), ∃ r : Response,
    exec (.decode v) s = .next { s with responses := s.responses ++ [r] } ∧
    (v.length ≠ 7 → r = .err .invalidLength) ∧
    (v.length = 7 → (∃ x ∈ v, x ≠ 0 ∧ x ≠ 1) → r = .err .invalidBit) ∧
    (v.length = 7 → (∀ x ∈ v, x = 0 ∨ x = 1) →
      ∃ syn : Fin 3 → Int,
        (∀ i : Fin 3, syn i =
          (v.getD 0 0 * (decidedH[i][0]).toInt + v.getD 1 0 * (decidedH[i][1]).toInt +
            v.getD 2 0 * (decidedH[i][2]).toInt + v.getD 3 0 * (decidedH[i][3]).toInt +
            v.getD 4 0 * (decidedH[i][4]).toInt + v.getD 5 0 * (decidedH[i][5]).toInt +
            v.getD 6 0 * (decidedH[i][6]).toInt) % 2) ∧
        ∃ (d : Data) (st : Status), r = .decOk d st ∧
          (((∀ i, syn i = 0) ∧ st = .noError ∧ ∀ i : Fin 4, (d[i]).toInt = v.getD i 0) ∨
            (¬ (∀ i, syn i = 0) ∧ ∃ p : Position, (∀ i : Fin 3, syn i = (decidedH[i][p]).toInt) ∧
              st = .errorCorrected p ∧
              ∀ i : Fin 4, (d[i]).toInt = if i.val = p.val then 1 - v.getD i 0 else v.getD i 0) ∨
            (¬ (∀ i, syn i = 0) ∧ (∀ p : Position, ∃ i : Fin 3, syn i ≠ (decidedH[i][p]).toInt) ∧
              st = .uncorrectableError ∧ ∀ i : Fin 4, (d[i]).toInt = v.getD i 0)))

/-- R82. ENCODE of four bits completes with the codeword of the seven XOR equations. -/
def Obligations.EncodeXorEquations : Prop :=
  ∀ (d : Data) (s : State), ∃ w : Word7,
    exec (.encode (seqOfWord d)) s = .next { s with responses := s.responses ++ [.encOk w] } ∧
    w[0] = d[0] ∧ w[1] = d[1] ∧ w[2] = d[2] ∧ w[3] = d[3] ∧
    w[4] = (d[0] ^^ d[1] ^^ d[2]) ∧ w[5] = (d[0] ^^ d[1] ^^ d[3]) ∧ w[6] = (d[1] ^^ d[2] ^^ d[3])

/-- R113 with R91 and the table of R18. DECODE of seven bits completes; the status is that of the syndrome's
XOR equations, and the data differ from `v[0..3]` at most in the reported position. -/
def Obligations.DecodeClosedForm : Prop :=
  ∀ (v : Word7) (s : State), ∃ (d : Data) (st : Status),
    exec (.decode (seqOfWord v)) s = .next { s with responses := s.responses ++ [.decOk d st] } ∧
    st = (match v[0] ^^ v[1] ^^ v[2] ^^ v[4], v[0] ^^ v[1] ^^ v[3] ^^ v[5],
            v[1] ^^ v[2] ^^ v[3] ^^ v[6] with
          | false, false, false => .noError
          | true, false, false => .errorCorrected 4
          | false, true, false => .errorCorrected 5
          | true, true, false => .errorCorrected 0
          | false, false, true => .errorCorrected 6
          | true, false, true => .errorCorrected 2
          | false, true, true => .errorCorrected 3
          | true, true, true => .errorCorrected 1) ∧
    ∀ i : Fin 4, d[i] = (v[i.val] ^^ decide (st = .errorCorrected (i.castLE (by decide))))

/-- R121. Every length but the expected one is refused with `InvalidLength`, whatever the symbols are, and
the transaction still completes. -/
def Obligations.WrongLengthIsInvalidLength : Prop :=
  ∀ (i : Instr) (s : State), i.operand.length ≠ i.op.arity →
    exec i s = .next { s with responses := s.responses ++ [.err .invalidLength] }

/-- R122. With the right length, one symbol that is neither 0 nor 1 is enough for `InvalidBit`, for both
operations; every such value is refused alike. -/
def Obligations.NonBitSymbolIsInvalidBit : Prop :=
  ∀ (i : Instr) (s : State) (x : Sym), i.operand.length = i.op.arity → x ∈ i.operand →
    x ≠ 0 → x ≠ 1 →
    exec i s = .next { s with responses := s.responses ++ [.err .invalidBit] }

/-- R126. With both a wrong length and a symbol that is no bit the error is `InvalidLength`, and one error
is all that is reported. -/
def Obligations.LengthErrorComesFirst : Prop :=
  ∀ (i : Instr) (s : State) (x : Sym), i.operand.length ≠ i.op.arity → x ∈ i.operand →
    x ≠ 0 → x ≠ 1 → ∃ t : State, exec i s = .next t ∧
      t.responses = s.responses ++ [.err .invalidLength] ∧ t.pending = s.pending

/-- R40. A request is answered with a response of its own kind: never `DecOk` for an ENCODE request, never
`EncOk` for a DECODE request, and `Err` exactly when its operand breaks the stated constraint. -/
def Obligations.ResponseIsOfTheRequestsKind : Prop :=
  ∀ (i : Instr) (s : State), ∃ r : Response,
    exec i s = .next { s with responses := s.responses ++ [r] } ∧ r.Answers i.op ∧
    ((∃ e, r = .err e) ↔ ¬ i.OperandOk)

/-! ## Purity, steps and runs -/

/-- R9. The same request gets the same response in any two states, and neither state's other contents play
a part or are changed. -/
def Obligations.ResponseDependsOnTheRequestAlone : Prop :=
  ∀ (i : Instr), ∃ r : Response, ∀ s : State,
    exec i s = .next { s with responses := s.responses ++ [r] }

/-- R37. Any two transactions commute: issued in either order, from any two states, each gets the same
response, and after both nothing but the order of the two responses differs. -/
def Obligations.TransactionsCommute : Prop :=
  ∀ (i j : Instr) (s s' : State), ∃ (ri rj : Response) (t t' : State),
    exec i s = .next t ∧
    exec j t = .next { s with responses := s.responses ++ [ri, rj] } ∧
    exec j s' = .next t' ∧
    exec i t' = .next { s' with responses := s'.responses ++ [rj, ri] }

/-- A step serves the request at the head of the queue: for a request word it is `exec` of what the decoder
reads from it, and the request is taken off the queue first (the model's own queue, log entry 1). -/
def Obligations.StepServesTheNextRequest : Prop :=
  ∀ (s : State) (rest : List Submission),
    (∀ q : ReqWord, s.pending = .word q :: rest →
      step s = exec (decodeReq q) { s with pending := rest }) ∧
    (∀ i : Instr, s.pending = .call i :: rest → step s = exec i { s with pending := rest })

/-- A word placed where the step finds its next request is run by the very next step as the instruction
that the decoder gives for it, and nothing else changes. -/
def Obligations.PlacedWordIsServedNext : Prop :=
  ∀ (s : State) (nbits w : Nat) (i : Instr), decodeTableWord nbits w = some i →
    step (s.withFetchWord nbits w) = exec i s ∧
    (s.withFetchWord nbits w).responses = s.responses ∧
    (s.withFetchWord nbits w).pending.tail = s.pending

/-- R129, R144. The block never hangs: a step is refused by nothing, it answers a next state for every
request, well-formed or not, delivering exactly one response for the one request taken, and it stops only
where no request is pending (that this stop is a fault named `runEnded` is the model's choice, log entry 3). -/
def Obligations.EveryRequestGetsExactlyOneResponse : Prop :=
  ∀ s : State,
    (s.pending = [] ∧ step s = .fault .runEnded) ∨
    ∃ (sub : Submission) (rest : List Submission) (r : Response),
      s.pending = sub :: rest ∧ step s = .next { pending := rest, responses := s.responses ++ [r] }

/-- R148, R149. The execution of a program is the list of the responses to its requests, in request order.
From any state and for any n: n steps serve the first n requests of the queue, each with the response it
gets on its own. -/
def Obligations.RunDeliversTheResponsesInOrder : Prop :=
  ∀ (s : State) (n : Nat), n ≤ s.pending.length →
    core.run n s = .next
      { pending := s.pending.drop n
        responses := s.responses ++ (s.pending.take n).map fun sub => serve decided (requestOf sub) }

/-- Every step keeps the run safe: whatever is pending, a response delivered is a codeword of zero syndrome,
a status other than `UncorrectableError` or an error, with a response word that is not excluded. -/
def Obligations.StepKeepsTheRunSafe : Prop :=
  ∀ s t : State, s.Safe → step s = .next t → t.Safe

/-- The state after reset is safe, holds no request and no response, and its one step ends the run. R140
says that reset does nothing to the block; that the two fields of the model are empty is the model's choice
(log entry 2). -/
def Obligations.ResetIsSafeAndEmpty : Prop :=
  State.reset.Safe ∧ State.reset.pending = [] ∧ State.reset.responses = [] ∧
    step State.reset = .fault .runEnded

/-! ## Request words -/

/-- R43 to R45. Every well-formed request has a word, and the decoder reads the request back from it. -/
def Obligations.RequestRoundTrip : Prop :=
  ∀ i : Instr, i.WellFormed → ∃ q : ReqWord, encodeReq i = some q ∧ decodeReq q = i

/-- R51. The requests that a word carries are exactly those with at most 7 symbols, every one 0 or 1; no
other request has a word, and `InvalidBit` is never the answer to a request word. -/
def Obligations.RequestWordsCarryExactlyTheBitOperands : Prop :=
  (∀ i : Instr, (∃ q : ReqWord, decodeReq q = i) ↔
    i.operand.length ≤ 7 ∧ ∀ x ∈ i.operand, x = 0 ∨ x = 1) ∧
  (∀ i : Instr, encodeReq i = none ↔
    ¬ (i.operand.length ≤ 7 ∧ ∀ x ∈ i.operand, x = 0 ∨ x = 1)) ∧
  ∀ (q : ReqWord) (s t : State), exec (decodeReq q) s = .next t →
    t.responses ≠ s.responses ++ [.err .invalidBit]

/-- R44. The operand is the first `len` payload bits; payload bits at and above `len` are ignored: two words
that differ only there are the same request and get the same response. -/
def Obligations.StrayPayloadBitsAreIgnored : Prop :=
  (∀ q : ReqWord, (decodeReq q).operand.length = (q.extractLsb' 7 3).toNat ∧
    ∀ k (h : k < (decodeReq q).operand.length),
      (decodeReq q).operand[k] = if q.getLsbD k then 1 else 0) ∧
  ∀ q q' : ReqWord, q.extractLsb' 7 4 = q'.extractLsb' 7 4 →
    (∀ k, k < (q.extractLsb' 7 3).toNat → q.getLsbD k = q'.getLsbD k) →
    decodeReq q = decodeReq q' ∧ ∀ s : State, exec (decodeReq q) s = exec (decodeReq q') s

/-- R45. `op` alone selects the operation, and every one of the 2048 words decodes. -/
def Obligations.OpAloneSelectsTheOperation : Prop :=
  ∀ q : ReqWord,
    (q &&& 0x400#11 = 0x000#11 → ∃ v, decodeReq q = .encode v) ∧
    (q &&& 0x400#11 = 0x400#11 → ∃ v, decodeReq q = .decode v) ∧
    decodeTableWord 16 q.toNat = some (decodeReq q)

/-- R46. No request word is reserved: each is answered, with `Err(InvalidLength)` when its `len` is not the
one its operation expects and with a result otherwise. -/
def Obligations.NoRequestWordIsReserved : Prop :=
  ∀ (q : ReqWord) (s : State) (rest : List Submission), s.pending = .word q :: rest →
    ∃ r : Response, step s = .next { pending := rest, responses := s.responses ++ [r] } ∧
      (q[10] = false → q.extractLsb' 7 3 ≠ 4#3 → r = .err .invalidLength) ∧
      (q[10] = true → q.extractLsb' 7 3 ≠ 7#3 → r = .err .invalidLength) ∧
      (q[10] = false → q.extractLsb' 7 3 = 4#3 → ∃ c, r = .encOk c) ∧
      (q[10] = true → q.extractLsb' 7 3 = 7#3 → ∃ d st, r = .decOk d st)

/-- The words of R55 written out bit by bit decode to their requests. -/
def Obligations.WorkedRequestWordsDecode : Prop :=
  decodeReq 0b01000001101#11 = .encode [1, 0, 1, 1] ∧
  decodeReq 0b01001111101#11 = .encode [1, 0, 1, 1] ∧
  decodeReq 0b00110000101#11 = .encode [1, 0, 1] ∧
  decodeReq 0b11110001111#11 = .decode [1, 1, 1, 1, 0, 0, 0] ∧
  decodeReq 0b11000001101#11 = .decode [1, 0, 1, 1]

/-- The line that the model writes for a request in the notation of R54 is read back as that request, for
operands of any length with any integers, negative ones among them. R54 gives the notation; the single
spaces, the decimal numerals and the reader are the model's choice (log entry 13, DEDUCED). -/
def Obligations.RequestTextRoundTrip : Prop :=
  ∀ i : Instr, readRequest (requestText i) = some i

/-! ## Response words -/

/-- R48. The four fields of the response word of every response, the zero fill among them, and the recovery
of the response by a host that knows which operation it asked for. -/
def Obligations.ResponseWordFieldsAndRecovery : Prop :=
  (∀ r : Response,
    let w := encodeRsp r
    match r with
    | .encOk c => rspErr w = 0#2 ∧ rspStatus w = 0#2 ∧ rspPos w = 7#3 ∧ rspOut w = c
    | .decOk d .noError => rspErr w = 0#2 ∧ rspStatus w = 0#2 ∧ rspPos w = 7#3 ∧
        (rspOut w).extractLsb' 0 4 = d ∧ (rspOut w).extractLsb' 4 3 = 0#3
    | .decOk d (.errorCorrected p) => rspErr w = 0#2 ∧ rspStatus w = 1#2 ∧
        (rspPos w).toNat = p.val ∧
        (rspOut w).extractLsb' 0 4 = d ∧ (rspOut w).extractLsb' 4 3 = 0#3
    | .decOk d .uncorrectableError => rspErr w = 0#2 ∧ rspStatus w = 2#2 ∧ rspPos w = 7#3 ∧
        (rspOut w).extractLsb' 0 4 = d ∧ (rspOut w).extractLsb' 4 3 = 0#3
    | .err .invalidLength => rspErr w = 1#2 ∧ rspStatus w = 0#2 ∧ rspPos w = 7#3 ∧ rspOut w = 0#7
    | .err .invalidBit => rspErr w = 2#2 ∧ rspStatus w = 0#2 ∧ rspPos w = 7#3 ∧ rspOut w = 0#7) ∧
  (∀ (op : Op) (r r' : Response), r.Answers op → r'.Answers op →
    encodeRsp r = encodeRsp r' → r = r') ∧
  ∀ (op : Op) (r : Response), r.Answers op → decodeRsp op (encodeRsp r) = .ok r

/-- R50. The words that are never produced, for the responses to layer-T requests and to request words,
and their refusal by name. -/
def Obligations.ExcludedResponseWords : Prop :=
  (∀ (i : Instr) (s t : State), exec i s = .next t → ∃ w : RspWord,
    t.rspWords = s.rspWords ++ [w] ∧ rspErr w ≠ 3#2 ∧ rspStatus w ≠ 3#2 ∧
    (rspErr w ≠ 0#2 → rspStatus w = 0#2 ∧ rspPos w = 7#3 ∧ rspOut w = 0#7) ∧
    (rspStatus w = 1#2 ↔ rspPos w ≠ 7#3) ∧ rspStatus w ≠ 2#2) ∧
  (∀ (q : ReqWord) (s t : State), exec (decodeReq q) s = .next t → ∃ w : RspWord,
    t.rspWords = s.rspWords ++ [w] ∧ rspErr w ≠ 2#2) ∧
  ∀ (op : Op) (w : RspWord),
    (rspErr w = 3#2 ∨ rspStatus w = 3#2 ∨
      (rspErr w ≠ 0#2 ∧ (rspStatus w ≠ 0#2 ∨ rspPos w ≠ 7#3 ∨ rspOut w ≠ 0#7)) ∨
      (rspStatus w = 1#2 ∧ rspPos w = 7#3) ∨ (rspStatus w ≠ 1#2 ∧ rspPos w ≠ 7#3) →
      ∃ e, decodeRsp op w = .error e ∧ ∃ e', decodeRspOfReq op w = .error e') ∧
    (rspErr w = 2#2 → decodeRspOfReq op w = .error .invalidBitFromWord) ∧
    (rspErr w ≠ 2#2 → rspStatus w = 2#2 → decodeRspOfReq op w = .error .uncorrectableUnderValid)

/-- R52. The front end adds nothing: for every request word, the word FE drives on `rsp`, computed by the
networks and the table, is the response word of the response that the step delivers; on a mismatch of
`len` it is `0x1380`. -/
def Obligations.FrontEndAddsNothing : Prop :=
  ∀ (q : ReqWord) (s : State) (rest : List Submission), s.pending = .word q :: rest →
    (∃ t : State, step s = .next t ∧ t.pending = rest ∧ t.rspWords = s.rspWords ++ [feRsp q]) ∧
    (q[10] = false → q.extractLsb' 7 3 ≠ 4#3 → feRsp q = 0x1380#14) ∧
    (q[10] = true → q.extractLsb' 7 3 ≠ 7#3 → feRsp q = 0x1380#14)

/-- R112. The unit DEC, net by net, is the syndrome, the lookup, the correction and the output of R101 to
R105 over ports. -/
def Obligations.DecUnitRestatesTheSteps : Prop :=
  ∀ v : Word7,
    let u := decUnit v
    let syn := syndrome decidedH v
    let st := statusOf (buildMap decided) syn
    u.decSyn = syn ∧ u.sle = sleUnit syn ∧ (u.zero = true ↔ syn = 0#3) ∧
      u.decW = correct st v ∧ u.decD = dataOf (correct st v) ∧
      u.decStatus = statusCode st ∧ u.decPos = posCode st

/-- R94, R32. The read-only table of SLE answers as MAP does: `hit` and the position where MAP finds one,
no hit and 7 where it does not; and its eight answers written out. -/
def Obligations.SleAnswersAsMap : Prop :=
  ∀ s : Syndrome,
    (∀ p : Position, lookup (buildMap decided) s = some p →
      (sleUnit s).sleHit = true ∧ (sleUnit s).slePos.toNat = p.val) ∧
    (lookup (buildMap decided) s = none → (sleUnit s).sleHit = false ∧ (sleUnit s).slePos = 7#3) ∧
    ((sleUnit s).sleHit, (sleUnit s).slePos) =
      (match s.toNat with
        | 1 => (true, 4#3)
        | 2 => (true, 5#3)
        | 3 => (true, 0#3)
        | 4 => (true, 6#3)
        | 5 => (true, 2#3)
        | 6 => (true, 3#3)
        | 7 => (true, 1#3)
        | _ => (false, 7#3))

/-! ## Arithmetic -/

/-- R60, R61, R62. The tables of addition and multiplication in GF(2) and of the flip, and their laws. That
the flip equals adding 1 is the sentence of R62 that the spec marks as derived from R60. -/
def Obligations.BitOperationTables : Prop :=
  [gfAdd false false, gfAdd false true, gfAdd true false, gfAdd true true] =
    [false, true, true, false] ∧
  [gfMul false false, gfMul false true, gfMul true false, gfMul true true] =
    [false, false, false, true] ∧
  flipBit false = true ∧ flipBit true = false ∧
  ∀ a b c : Bit, gfAdd a b = gfAdd b a ∧ gfAdd (gfAdd a b) c = gfAdd a (gfAdd b c) ∧
    gfAdd a false = a ∧ gfAdd a a = false ∧ gfMul a b = gfMul b a ∧
    gfMul (gfMul a b) c = gfMul a (gfMul b c) ∧ gfMul a true = a ∧
    gfMul a (gfAdd b c) = gfAdd (gfMul a b) (gfMul a c) ∧
    flipBit a = gfAdd a true ∧ flipBit (flipBit a) = a

/-- R63. The dot product is the XOR of the products, and is 1 exactly when the number of indices where both
bits are 1 is odd. -/
def Obligations.DotProductIsAParity : Prop :=
  ∀ (n : Nat) (a b : BitVec n),
    dot2 a b = (List.finRange n).foldr (fun i acc => gfAdd (gfMul a[i] b[i]) acc) false ∧
    (dot2 a b = true ↔ (weight (a &&& b)) % 2 = 1)

/-- R65. Both products are linear, map zero to zero, and a single flipped bit adds a column. -/
def Obligations.ProductsAreLinear : Prop :=
  ∀ (r c : Nat) (m : BitMatrix r c),
    (∀ d d' : BitVec r, vecMat (d ^^^ d') m = vecMat d m ^^^ vecMat d' m) ∧
    (∀ v v' : BitVec c, matVec m (v ^^^ v') = matVec m v ^^^ matVec m v') ∧
    vecMat 0#r m = 0#c ∧ matVec m 0#c = 0#r ∧
    ∀ (v : BitVec c) (p : Fin c), matVec m (v ^^^ unitAt p) = matVec m v ^^^ column m p

/-! ## The constants -/

/-- R18. MAP built from the decided H is the table of R18, and H's columns are those of R17. -/
def Obligations.DecidedMapIsTheTable : Prop :=
  buildMap decided = #v[none, some 4, some 5, some 0, some 6, some 2, some 3, some 1] ∧
  (List.finRange 7).map (column decidedH) = [3#3, 7#3, 5#3, 6#3, 1#3, 2#3, 4#3]

/-- R18, R71, for every valid pair: the map finds p for a pattern exactly when the pattern is column p of
H. -/
def Obligations.MapFindsExactlyTheColumns : Prop :=
  ∀ (c : ValidCodec) (s : Syndrome),
    (∀ p : Position, lookup (buildMap c) s = some p ↔ column c.codec.h p = s) ∧
    (lookup (buildMap c) s = none ↔ ∀ p : Position, column c.codec.h p ≠ s)

/-- R96. For every valid pair the map is a bijection between the non-zero patterns and the positions, and
inverts the syndromes of the unit words. The zero-pattern clause (R95) and the inverse direction are what
the spec marks as derived from validity (R73, R76). -/
def Obligations.MapIsABijection : Prop :=
  ∀ c : ValidCodec,
    lookup (buildMap c) 0#3 = none ∧
    (∀ s : Syndrome, s ≠ 0#3 → ∃! p : Position, lookup (buildMap c) s = some p) ∧
    (∀ p : Position, ∃! s : Syndrome, lookup (buildMap c) s = some p) ∧
    ∀ p : Position, syndrome c.codec.h (unitAt p) = column c.codec.h p ∧
      lookup (buildMap c) (column c.codec.h p) = some p

/-- R76. What validity gives the other rules: (a) every non-zero pattern is a key, (b) columns are inverted,
(c) codewords have zero syndrome, (d) distance 3 and the perfect covering of all words. -/
def Obligations.ConsequencesOfValidity : Prop :=
  ∀ c : ValidCodec,
    (∀ s : Syndrome, s ≠ 0#3 → ∃ p : Position, lookup (buildMap c) s = some p) ∧
    (∀ p : Position, lookup (buildMap c) (column c.codec.h p) = some p) ∧
    (∀ d : Data, matVec c.codec.h (vecMat d c.codec.g) = 0#3) ∧
    (∀ d d' : Data, codeword c d ≠ codeword c d' → 3 ≤ weight (codeword c d ^^^ codeword c d')) ∧
    ∀ v : Word7, (∃ d, v = codeword c d) ∨
      ∃ (d : Data) (p : Position), v = codeword c d ^^^ unitAt p ∧
        ∀ (d' : Data) (p' : Position), v = codeword c d' ^^^ unitAt p' →
          codeword c d' = codeword c d ∧ p' = p

/-- Note D1 of spec/92_eei_decisions.md: a valid pair whose G reproduces the source's worked example has one
of six parity parts, the decided one among them. -/
def Obligations.SixCandidateGenerators : Prop :=
  ∀ c : ValidCodec, vecMat 0b1101#4 c.codec.g = 0b0001101#7 →
    c.codec.g.map (fun row => row.extractLsb' 4 3) ∈
      [#v[6#3, 7#3, 5#3, 3#3], #v[6#3, 7#3, 3#3, 5#3], #v[5#3, 7#3, 6#3, 3#3],
       #v[5#3, 7#3, 3#3, 6#3], #v[3#3, 7#3, 6#3, 5#3], #v[3#3, 7#3, 5#3, 6#3]]

/-- R20. The choice of H cannot be seen: with any invertible A, (G, A * H) is again valid and answers every
request as (G, H) does, while its syndrome is A times the other. -/
def Obligations.ChoiceOfParityCheckIsUnobservable : Prop :=
  ∀ (c : ValidCodec) (a b : BitMatrix 3 3),
    (∀ v : BitVec 3, matVec b (matVec a v) = v) →
    ∃ c' : ValidCodec, c'.codec.g = c.codec.g ∧
      (∀ j : Position, column c'.codec.h j = matVec a (column c.codec.h j)) ∧
      (∀ v : Word7, syndrome c'.codec.h v = matVec a (syndrome c.codec.h v)) ∧
      ∀ i : Instr, serve c' i = serve c i

/-! ## ENCODE under every valid pair -/

/-- R83. The codeword begins with the data; different data give different codewords; there are exactly 16. -/
def Obligations.EncodeIsSystematic : Prop :=
  ∀ c : ValidCodec,
    (∀ d : Data, ∃ w : Word7, serve c (.encode (seqOfWord d)) = .encOk w ∧ w.extractLsb' 0 4 = d) ∧
    (∀ d d' : Data,
      serve c (.encode (seqOfWord d)) = serve c (.encode (seqOfWord d')) → d = d') ∧
    ((List.finRange 16).map fun n => codeword c (BitVec.ofFin n)).toFinset.card = 16

/-- R84. ENCODE is linear and maps the zero vector to the zero codeword. -/
def Obligations.EncodeIsLinear : Prop :=
  ∀ c : ValidCodec,
    (∀ d d' : Data, ∃ w w' : Word7,
      serve c (.encode (seqOfWord d)) = .encOk w ∧ serve c (.encode (seqOfWord d')) = .encOk w' ∧
      serve c (.encode (seqOfWord (d ^^^ d'))) = .encOk (w ^^^ w')) ∧
    serve c (.encode [0, 0, 0, 0]) = .encOk 0#7

/-- R85. Every codeword that ENCODE returns has zero syndrome. -/
def Obligations.CodewordsHaveZeroSyndrome : Prop :=
  ∀ (c : ValidCodec) (v : SymSeq) (w : Word7),
    serve c (.encode v) = .encOk w → syndrome c.codec.h w = 0#3

/-- R86. The complete function of the decided G, the 16 rows of the table, and the smallest weight 3. -/
def Obligations.EncodeTable : Prop :=
  (∀ (n : Fin 16) (s : State),
    exec (.encode (seqOfWord (BitVec.ofFin n : Data))) s =
      .next { s with responses := s.responses ++ [.encOk
        ((#v[0x00#7, 0x31#7, 0x72#7, 0x43#7, 0x54#7, 0x65#7, 0x26#7, 0x17#7,
            0x68#7, 0x59#7, 0x1A#7, 0x2B#7, 0x3C#7, 0x0D#7, 0x4E#7, 0x7F#7] : Vector Word7 16)[n])] }) ∧
  ∀ d : Data, d ≠ 0#4 → 3 ≤ weight (codeword decided d)

/-! ## DECODE under every valid pair -/

/-- R92. The syndrome depends on the error pattern alone; one flipped bit gives its column, two give the
column of a third position. -/
def Obligations.SyndromeIgnoresTheCodeword : Prop :=
  ∀ (c : ValidCodec) (d : Data),
    (∀ e : Word7, syndrome c.codec.h (codeword c d ^^^ e) = syndrome c.codec.h e) ∧
    syndrome c.codec.h (codeword c d) = 0#3 ∧
    (∀ p : Position, syndrome c.codec.h (codeword c d ^^^ unitAt p) = column c.codec.h p) ∧
    ∀ a b : Position, a ≠ b →
      syndrome c.codec.h (codeword c d ^^^ unitAt a ^^^ unitAt b) =
        column c.codec.h a ^^^ column c.codec.h b ∧
      ∃ q : Position, q ≠ a ∧ q ≠ b ∧ column c.codec.h q = column c.codec.h a ^^^ column c.codec.h b

/-- R103. CORRECT flips exactly the bit that the map finds, in either direction, and changes nothing when
the map finds none: for any H and any map, also one that lacks a key, the defensive branch among them. -/
def Obligations.CorrectFlipsExactlyTheFoundBit : Prop :=
  ∀ (h : BitMatrix 3 7) (m : SynMap) (v : Word7), syndrome h v ≠ 0#3 →
    (∀ p : Position, lookup m (syndrome h v) = some p →
      ∃ w : Word7, w[p] = !v[p] ∧ (∀ j : Position, j ≠ p → w[j] = v[j]) ∧
        decodeCore h m v = .decOk (w.extractLsb' 0 4) (.errorCorrected p)) ∧
    (lookup m (syndrome h v) = none →
      decodeCore h m v = .decOk (v.extractLsb' 0 4) .uncorrectableError)

/-- R111. The round trip: what ENCODE returns decodes to the data with `NoError`, in any state. -/
def Obligations.RoundTrip : Prop :=
  ∀ (c : ValidCodec) (v : SymSeq) (w : Word7), serve c (.encode v) = .encOk w →
    ∃ d : Data, v = seqOfWord d ∧ serve c (.decode (seqOfWord w)) = .decOk d .noError

/-- R107 item 2. Any single flipped bit of a codeword is corrected and its position reported. -/
def Obligations.SingleErrorIsCorrected : Prop :=
  ∀ (c : ValidCodec) (d : Data) (p : Position),
    serve c (.decode (seqOfWord (flipAt (codeword c d) p))) = .decOk d (.errorCorrected p)

/-- R107 item 3. Two flipped bits are miscorrected at a third position, with wrong data. -/
def Obligations.DoubleErrorIsMiscorrected : Prop :=
  ∀ (c : ValidCodec) (d : Data) (a b : Position), a ≠ b →
    ∃ (q : Position) (d' : Data), q ≠ a ∧ q ≠ b ∧ d' ≠ d ∧
      column c.codec.h q = column c.codec.h a ^^^ column c.codec.h b ∧
      serve c (.decode (seqOfWord (flipAt (flipAt (codeword c d) a) b))) =
        .decOk d' (.errorCorrected q)

/-- R107 item 4, with item 3. After two or more flipped bits the data are always wrong and the status never
says so. -/
def Obligations.TwoOrMoreErrorsGiveWrongData : Prop :=
  ∀ (c : ValidCodec) (d : Data) (e : Word7), 2 ≤ weight e →
    ∃ (d' : Data) (st : Status),
      serve c (.decode (seqOfWord (codeword c d ^^^ e))) = .decOk d' st ∧ d' ≠ d ∧
      (st = .noError ∨ ∃ q : Position, st = .errorCorrected q)

/-- R108. Zero syndrome exactly for codewords, whose data are then their first four bits, under every valid
pair; and with the decided pair `NoError` is delivered for exactly 16 of the 128 received words, the count
that the spec marks as derived from R83 and R76. -/
def Obligations.ZeroSyndromeExactlyForCodewords : Prop :=
  (∀ (c : ValidCodec) (v : Word7),
    (syndrome c.codec.h v = 0#3 ↔ ∃ d : Data, serve c (.encode (seqOfWord d)) = .encOk v) ∧
    ∀ d : Data, serve c (.encode (seqOfWord d)) = .encOk v → d = v.extractLsb' 0 4) ∧
  (((List.finRange 128).filter fun n =>
      serve decided (.decode (seqOfWord (BitVec.ofFin n : Word7))) =
        .decOk ((BitVec.ofFin n : Word7).extractLsb' 0 4) .noError).length = 16)

/-- R109. Under a valid pair no operand whatever is answered with `UncorrectableError`. -/
def Obligations.UncorrectableNeverOccurs : Prop :=
  ∀ (c : ValidCodec) (i : Instr) (d : Data), serve c i ≠ .decOk d .uncorrectableError

/-- R110. A correction in a parity position leaves the data as received; one in a data position changes
exactly that bit; with any other status the data are as received. For any H and any map. -/
def Obligations.ParityCorrectionLeavesTheData : Prop :=
  ∀ (h : BitMatrix 3 7) (m : SynMap) (v : Word7), ∃ (d : Data) (st : Status),
    decodeCore h m v = .decOk d st ∧
    (∀ p : Position, st = .errorCorrected p → 4 ≤ p.val → d = v.extractLsb' 0 4) ∧
    (∀ p : Position, st = .errorCorrected p → p.val < 4 →
      ∀ i : Fin 4, d[i] = v[i.val] ↔ i.val ≠ p.val) ∧
    (st = .noError ∨ st = .uncorrectableError → d = v.extractLsb' 0 4)
end

