-- ==== Sys2Proof/Laws/Gf2.lean ====
section
/-! SUPPORT. The small lemmas of Machine/Gf2.lean: reading a word built bit by bit, and the operations of
GF(2) as Boolean operations. -/

namespace Sys2Proof.Machine

@[simp] theorem getElem_bitsOf {n : Nat} (f : Fin n → Bit) (i : Nat) (h : i < n) :
    (bitsOf n f)[i] = f ⟨i, h⟩ := by
  induction n with
  | zero => omega
  | succ n ih =>
    simp only [bitsOf, BitVec.getElem_cons]
    split
    · subst i; rfl
    · exact ih _ (by omega)

/-- Two words are equal when they agree at every index. -/
theorem word_ext {n : Nat} {a b : BitVec n} (h : ∀ i : Fin n, a[i] = b[i]) : a = b :=
  BitVec.eq_of_getElem_eq fun i hi => h ⟨i, hi⟩

theorem bitsOf_getElem {n : Nat} (w : BitVec n) : (bitsOf n fun i => w[i]) = w :=
  word_ext fun i => by simp

/-- The remainder modulo 2 takes sums to XOR. -/
theorem mod2_add (m n : Nat) : mod2 (m + n) = (mod2 m ^^ mod2 n) := by
  unfold mod2
  rcases Nat.mod_two_eq_zero_or_one m with h | h <;>
    rcases Nat.mod_two_eq_zero_or_one n with h' | h' <;> simp [Nat.add_mod, h, h']

@[simp] theorem mod2_zero : mod2 0 = false := rfl

@[simp] theorem mod2_toNat (b : Bit) : mod2 b.toNat = b := by cases b <;> rfl

@[simp] theorem gfAdd_eq_xor (a b : Bit) : gfAdd a b = (a ^^ b) := by cases a <;> cases b <;> rfl

@[simp] theorem gfMul_eq_and (a b : Bit) : gfMul a b = (a && b) := by cases a <;> cases b <;> rfl

@[simp] theorem flipBit_eq_not (b : Bit) : flipBit b = !b := by cases b <;> rfl

theorem toNat_mul_toNat (a b : Bit) : a.toNat * b.toNat = (a && b).toNat := by
  cases a <;> cases b <;> rfl

/-- The remainder modulo 2 of a sum of bits is their XOR, from the right. -/
theorem mod2_sum {α : Type} (l : List α) (f : α → Bit) :
    mod2 (l.map fun i => (f i).toNat).sum = l.foldr (fun i acc => f i ^^ acc) false := by
  induction l with
  | nil => rfl
  | cons a l ih => simp [mod2_add, ih]

/-- The dot product as the XOR of the products. -/
theorem dot2_eq_foldr {n : Nat} (a b : BitVec n) :
    dot2 a b = (List.finRange n).foldr (fun i acc => (a[i] && b[i]) ^^ acc) false := by
  simp only [dot2, toNat_mul_toNat]
  exact mod2_sum _ fun i : Fin n => a[i] && b[i]

theorem dot2_comm {n : Nat} (a b : BitVec n) : dot2 a b = dot2 b a := by
  simp only [dot2_eq_foldr, Bool.and_comm]

/-- The dot product is additive on the right. -/
theorem dot2_xor_right {n : Nat} (a b c : BitVec n) :
    dot2 a (b ^^^ c) = (dot2 a b ^^ dot2 a c) := by
  have key : ∀ x y z u w : Bit,
      ((x && (y ^^ z)) ^^ (u ^^ w)) = (((x && y) ^^ u) ^^ ((x && z) ^^ w)) := by decide
  simp only [dot2_eq_foldr]
  induction List.finRange n with
  | nil => rfl
  | cons i l ih =>
    rw [List.foldr_cons, ih, List.foldr_cons, List.foldr_cons]
    simp only [Fin.getElem_fin, BitVec.getElem_xor]
    exact key ..

@[simp] theorem dot2_zero_right {n : Nat} (a : BitVec n) : dot2 a 0#n = false := by
  simpa using dot2_xor_right a 0#n 0#n

@[simp] theorem getElem_column {r c : Nat} (m : BitMatrix r c) (j : Fin c) (i : Nat) (h : i < r) :
    (column m j)[i] = m[i][j] := by simp [column]

@[simp] theorem getElem_vecMat {r c : Nat} (d : BitVec r) (m : BitMatrix r c) (j : Nat) (h : j < c) :
    (vecMat d m)[j] = dot2 d (column m ⟨j, h⟩) := by simp [vecMat]

@[simp] theorem getElem_matVec {r c : Nat} (m : BitMatrix r c) (v : BitVec c) (i : Nat) (h : i < r) :
    (matVec m v)[i] = dot2 m[i] v := by simp [matVec]

@[simp] theorem getElem_flipAt {n : Nat} (w : BitVec n) (p : Fin n) (i : Nat) (h : i < n) :
    (flipAt w p)[i] = if i = p.val then !w[i] else w[i] := by
  simp [flipAt, Fin.ext_iff]

@[simp] theorem getElem_unitAt {n : Nat} (p : Fin n) (i : Nat) (h : i < n) :
    (unitAt p)[i] = decide (i = p.val) := by
  simp [unitAt, Fin.ext_iff]

/-- The dot product with a unit word reads one bit. -/
theorem dot2_unitAt {n : Nat} (a : BitVec n) (p : Fin n) : dot2 a (unitAt p) = a[p] := by
  have key : ∀ l : List (Fin n), l.Nodup →
      l.foldr (fun i acc => (a[i] && (unitAt p)[i]) ^^ acc) false = (decide (p ∈ l) && a[p]) := by
    intro l
    induction l with
    | nil => simp
    | cons i l ih =>
      intro h
      rw [List.nodup_cons] at h
      rw [List.foldr_cons, ih h.2]
      by_cases hip : i = p
      · subst hip; simp [h.1]
      · have h1 : i.val ≠ p.val := fun e => hip (Fin.ext e)
        have h2 : ¬ p = i := fun e => hip e.symm
        simp [h1, h2]
  rw [dot2_eq_foldr, key _ (List.nodup_finRange n)]
  simp

/-- Flipping one bit is adding the unit word. -/
theorem flipAt_eq_xor {n : Nat} (w : BitVec n) (p : Fin n) : flipAt w p = w ^^^ unitAt p :=
  word_ext fun i => by by_cases h : i.val = p.val <;> simp [h]

end Sys2Proof.Machine
end

