-- ==== Sys2Proof/Laws/Construction.lean ====
section
/-! SUPPORT. What the loop that builds MAP does, turn by turn, and the parts of validity. -/

namespace Sys2Proof

theorem ValidCodec.systematic (c : ValidCodec) : c.codec.Systematic := c.valid.1

theorem ValidCodec.orthogonal (c : ValidCodec) : c.codec.Orthogonal := c.valid.2.1

theorem ValidCodec.column_ne_zero (c : ValidCodec) (j : Position) :
    Machine.column c.codec.h j ≠ 0#3 := c.valid.2.2.1 j

theorem ValidCodec.column_injective (c : ValidCodec) {j k : Position}
    (h : Machine.column c.codec.h j = Machine.column c.codec.h k) : j = k := c.valid.2.2.2 j k h

namespace Machine

/-- One turn of the loop, seen by a lookup: the column's own key is set, every other is as it was. -/
theorem lookup_mapColumn (h : BitMatrix 3 7) (m : SynMap) (j : Position) (s : Syndrome) :
    lookup (mapColumn h m j) s = if column h j = s then some j else lookup m s := by
  by_cases hs : column h j = s
  · subst hs; simp [lookup, mapColumn]
  · have : (column h j).toNat ≠ s.toNat := fun e => hs (BitVec.eq_of_toNat_eq e)
    simp [lookup, mapColumn, hs, this]

/-- The loop over a list of columns whose keys are distinct. -/
theorem lookup_foldl_mapColumn (h : BitMatrix 3 7) (s : Syndrome) (l : List Position) (m : SynMap) :
    lookup (l.foldl (mapColumn h) m) s =
      match (l.reverse.find? fun j => column h j = s) with
      | some j => some j
      | none => lookup m s := by
  induction l generalizing m with
  | nil => rfl
  | cons j l ih =>
    rw [List.foldl_cons, ih, List.reverse_cons, List.find?_append, lookup_mapColumn]
    cases hf : l.reverse.find? fun j => decide (column h j = s) with
    | some k => rfl
    | none => by_cases hs : column h j = s <;> simp [hs]

/-- Everything `statusOf` can answer, for any map. -/
theorem statusOf_cases (m : SynMap) (syn : Syndrome) :
    (syn = 0#3 ∧ statusOf m syn = .noError) ∨
      (syn ≠ 0#3 ∧ ∃ p, lookup m syn = some p ∧ statusOf m syn = .errorCorrected p) ∨
      (syn ≠ 0#3 ∧ lookup m syn = none ∧ statusOf m syn = .uncorrectableError) := by
  by_cases h : syn = 0#3
  · exact Or.inl ⟨h, by simp [statusOf, h]⟩
  · right
    cases hl : lookup m syn with
    | some p => exact Or.inl ⟨h, p, rfl, by simp [statusOf, h, hl]⟩
    | none => exact Or.inr ⟨h, rfl, by simp [statusOf, h, hl]⟩

end Machine

end Sys2Proof
end

