-- ==== Sys2Proof/Laws/Decode.lean ====
section
/-! SUPPORT. The small lemmas of the request word: its operand, and where a number is one. -/

namespace Sys2Proof

@[simp] theorem Instr.op_ofOp (op : Op) (v : SymSeq) : (Instr.ofOp op v).op = op := by cases op <;> rfl

@[simp] theorem Instr.operand_ofOp (op : Op) (v : SymSeq) : (Instr.ofOp op v).operand = v := by
  cases op <;> rfl

/-- A request is its operation and its operand. -/
theorem Instr.ofOp_op_operand (i : Instr) : Instr.ofOp i.op i.operand = i := by cases i <;> rfl

@[simp] theorem decodeReq_op (q : ReqWord) : (decodeReq q).op = reqOp q := Instr.op_ofOp _ _

@[simp] theorem decodeReq_operand (q : ReqWord) : (decodeReq q).operand = reqOperand q :=
  Instr.operand_ofOp _ _

@[simp] theorem length_reqOperand (q : ReqWord) : (reqOperand q).length = reqLen q := by
  simp [reqOperand]

theorem reqLen_le (q : ReqWord) : reqLen q ≤ 7 := by
  have := (q.extractLsb' 7 3).isLt
  simp only [reqLen]; omega

theorem reqOperand_isBit (q : ReqWord) : ∀ x ∈ reqOperand q, IsBit x := by
  intro x hx
  obtain ⟨i, -, rfl⟩ := List.mem_map.mp hx
  cases (reqPayload q).getLsbD i <;> decide

/-- Every request word carries a well-formed request. -/
theorem decodeReq_wellFormed (q : ReqWord) : (decodeReq q).WellFormed := by
  rw [Instr.WellFormed, decodeReq_operand, length_reqOperand]
  exact ⟨reqLen_le q, reqOperand_isBit q⟩

/-- Everything `decodeTableWord` can answer. -/
theorem decodeTableWord_eq_some {nbits w : Nat} {i : Instr} (h : decodeTableWord nbits w = some i) :
    ∃ q, reqOfNat nbits w = .ok q ∧ decodeReq q = i := by
  unfold decodeTableWord decodeWord at h
  cases hq : reqOfNat nbits w with
  | ok q => rw [hq] at h; exact ⟨q, rfl, by simpa using h⟩
  | error e => rw [hq] at h; simp at h

end Sys2Proof
end

