-- ==== Sys2Proof/Laws/Operands.lean ====
section
/-! SUPPORT. What the operand checks can do, and that a word survives the way through its sequence. -/

namespace Sys2Proof.Machine

@[simp] theorem symbolIsBit_iff (x : Sym) : symbolIsBit x = true ↔ IsBit x := by
  simp [symbolIsBit]

@[simp] theorem bitOfSym_symOfBit (b : Bit) : bitOfSym (symOfBit b) = b := by cases b <;> rfl

theorem symOfBit_bitOfSym {x : Sym} (h : IsBit x) : symOfBit (bitOfSym x) = x := by
  rcases h with rfl | rfl <;> rfl

theorem symOfBit_isBit (b : Bit) : IsBit (symOfBit b) := by cases b <;> decide

@[simp] theorem length_seqOfWord {n : Nat} (w : BitVec n) : (seqOfWord w).length = n := by
  simp [seqOfWord]

theorem seqOfWord_isBit {n : Nat} (w : BitVec n) : ∀ x ∈ seqOfWord w, IsBit x := by
  intro x hx
  obtain ⟨i, -, rfl⟩ := List.mem_map.mp hx
  exact symOfBit_isBit _

theorem getD_seqOfWord {n : Nat} (w : BitVec n) (i : Fin n) :
    (seqOfWord w).getD i 0 = symOfBit w[i] := by
  simp [seqOfWord, List.getD_eq_getElem?_getD]

/-- A word read back from its own sequence. -/
@[simp] theorem wordOfSeq_seqOfWord {n : Nat} (w : BitVec n) : wordOfSeq n (seqOfWord w) = w :=
  word_ext fun i => by simp only [wordOfSeq, Fin.getElem_fin, getElem_bitsOf, getD_seqOfWord, bitOfSym_symOfBit]

/-- A checked sequence is the sequence of its own word. -/
theorem seqOfWord_wordOfSeq {n : Nat} {v : SymSeq} (hl : v.length = n) (hb : ∀ x ∈ v, IsBit x) :
    seqOfWord (wordOfSeq n v) = v := by
  subst hl
  apply List.ext_getElem (by simp)
  intro i h1 h2
  simp only [seqOfWord, wordOfSeq, List.getElem_map, List.getElem_finRange, Fin.getElem_fin,
    getElem_bitsOf, Fin.val_cast]
  rw [List.getD_eq_getElem _ _ h2]
  exact symOfBit_bitOfSym (hb _ (List.getElem_mem h2))

variable {n : Nat} {v : SymSeq} (k : BitVec n → Response)

/-- The first check: a wrong length ends the transaction, whatever the symbols are. -/
theorem withOperand_length (h : v.length ≠ n) : withOperand n v k = .err .invalidLength := by
  simp [withOperand, h, raise]

/-- The second check: with the right length, a symbol that is no bit ends the transaction. -/
theorem withOperand_bit (h : v.length = n) (hb : ¬ ∀ x ∈ v, IsBit x) :
    withOperand n v k = .err .invalidBit := by
  have : v.all symbolIsBit = false := by
    rw [Bool.eq_false_iff]; simpa [List.all_eq_true] using hb
  simp [withOperand, h, this, raise]

/-- A checked operand goes on as a word. -/
theorem withOperand_ok (h : v.length = n) (hb : ∀ x ∈ v, IsBit x) :
    withOperand n v k = k (wordOfSeq n v) := by
  have : v.all symbolIsBit = true := by simpa [List.all_eq_true] using hb
  simp [withOperand, h, this]

/-- The operand that is the sequence of a word. -/
@[simp] theorem withOperand_seqOfWord (w : BitVec n) : withOperand n (seqOfWord w) k = k w := by
  rw [withOperand_ok k (length_seqOfWord w) (seqOfWord_isBit w), wordOfSeq_seqOfWord]

end Sys2Proof.Machine
end

