-- ==== Sys2Proof/Laws/PerInstr.lean ====
section
/-! SUPPORT. The families of LAWS.json: a statement about an instruction as syntax, one lemma per
constructor. -/

namespace Sys2Proof.Laws.ReqWord

/-- The request word of an instruction, where it has one, has the instruction's `op` and `len` in their
fields (R43, R45). -/
def Statement (i : Instr) : Prop :=
  ∀ q : Sys2Proof.ReqWord, encodeReq i = some q → reqOp q = i.op ∧ reqLen q = i.operand.length

/-- The `op` field of an assembled word. -/
theorem reqOp_append (b : BitVec 1) (l : BitVec 3) (p : BitVec 7) :
    reqOp (b ++ l ++ p) = if b[0] then .decode else .encode := by
  have h : (b ++ l ++ p : Sys2Proof.ReqWord)[10] = b[0] :=
    (BitVec.getElem_append (x := b ++ l) (y := p) (i := 10) (by decide)).trans
      (BitVec.getElem_append (x := b) (y := l) (i := 3) (by decide))
  rw [reqOp, h]

/-- The `len` field of an assembled word. -/
theorem reqLen_append (b : BitVec 1) (l : BitVec 3) (p : BitVec 7) :
    reqLen (b ++ l ++ p) = l.toNat :=
  congrArg BitVec.toNat
    ((BitVec.extractLsb'_append_eq_of_le (xhi := b ++ l) (xlo := p) (start := 7) (len := 3)
      (by decide)).trans BitVec.extractLsb'_append_eq_right)

theorem encode (v : SymSeq) : Statement (.encode v) := by
  intro q hq
  unfold encodeReq at hq
  split at hq
  · rename_i hw
    obtain rfl := Option.some.inj hq
    rw [reqOp_append, reqLen_append]
    have : v.length < 8 := Nat.lt_succ_of_le hw.1
    exact ⟨by simp [opBit, Instr.op], by simpa [Instr.operand] using this⟩
  · cases hq

theorem decode (v : SymSeq) : Statement (.decode v) := by
  intro q hq
  unfold encodeReq at hq
  split at hq
  · rename_i hw
    obtain rfl := Option.some.inj hq
    rw [reqOp_append, reqLen_append]
    have : v.length < 8 := Nat.lt_succ_of_le hw.1
    exact ⟨by simp [opBit, Instr.op], by simpa [Instr.operand] using this⟩
  · cases hq

end Sys2Proof.Laws.ReqWord
end

