-- ==== Sys2Proof/Laws/Response.lean ====
section
/-! SUPPORT. Reading the four fields of a response word. -/

namespace Sys2Proof.Machine

variable (err status : BitVec 2) (pos : BitVec 3) (out : Word7)

@[simp] theorem rspErr_rspOfFields : rspErr (rspOfFields err status pos out) = err :=
  ((BitVec.extractLsb'_append_eq_of_le (xhi := err ++ status ++ pos) (xlo := out) (start := 12)
    (len := 2) (by decide)).trans
    (BitVec.extractLsb'_append_eq_of_le (xhi := err ++ status) (xlo := pos) (start := 5) (len := 2)
      (by decide))).trans BitVec.extractLsb'_append_eq_left

@[simp] theorem rspStatus_rspOfFields : rspStatus (rspOfFields err status pos out) = status :=
  ((BitVec.extractLsb'_append_eq_of_le (xhi := err ++ status ++ pos) (xlo := out) (start := 10)
    (len := 2) (by decide)).trans
    (BitVec.extractLsb'_append_eq_of_le (xhi := err ++ status) (xlo := pos) (start := 3) (len := 2)
      (by decide))).trans BitVec.extractLsb'_append_eq_right

@[simp] theorem rspPos_rspOfFields : rspPos (rspOfFields err status pos out) = pos :=
  (BitVec.extractLsb'_append_eq_of_le (xhi := err ++ status ++ pos) (xlo := out) (start := 7)
    (len := 3) (by decide)).trans BitVec.extractLsb'_append_eq_right

@[simp] theorem rspOut_rspOfFields : rspOut (rspOfFields err status pos out) = out :=
  BitVec.extractLsb'_append_eq_right

end Sys2Proof.Machine
end

