-- ==== Sys2Proof/Laws/State.lean ====
section
/-! SUPPORT. One lemma per field per update of State, and what `deliver`, `exec` and `step` can do. -/

namespace Sys2Proof.Machine

variable {s t : State} {r : Response}

@[simp] theorem State.reset_pending : State.reset.pending = [] := rfl

@[simp] theorem State.reset_responses : State.reset.responses = [] := rfl

theorem State.ext_fields (hp : s.pending = t.pending) (hr : s.responses = t.responses) : s = t := by
  cases s; cases t; simp_all

/-- Everything `deliver` can do. -/
theorem deliver_eq (r : Response) (s : State) :
    deliver r s = .next { s with responses := s.responses ++ [r] } := rfl

theorem deliver_next (h : deliver r s = .next t) :
    t.pending = s.pending ∧ t.responses = s.responses ++ [r] := by
  cases h; exact ⟨rfl, rfl⟩

@[simp] theorem rspWords_deliver (s : State) (r : Response) :
    State.rspWords { s with responses := s.responses ++ [r] } = s.rspWords ++ [encodeRsp r] := by
  simp [State.rspWords]

/-- Everything `exec` can do: deliver the response of the request. -/
theorem exec_eq_deliver (i : Instr) (s : State) : exec i s = deliver (serve decided i) s := by
  cases i <;> rfl

/-- The step when nothing is pending. -/
theorem step_nil (h : s.pending = []) : step s = .fault .runEnded := by simp [step, h]

/-- The step when a request is pending. -/
theorem step_cons {sub : Submission} {rest : List Submission} (h : s.pending = sub :: rest) :
    step s = exec (requestOf sub) { s with pending := rest } := by simp [step, h]

/-- Everything a step that answers a next state can do. -/
theorem step_next (h : step s = .next t) :
    ∃ sub rest, s.pending = sub :: rest ∧ t.pending = rest ∧
      t.responses = s.responses ++ [serve decided (requestOf sub)] := by
  cases hp : s.pending with
  | nil => rw [step_nil hp] at h; cases h
  | cons sub rest =>
    rw [step_cons hp, exec_eq_deliver] at h
    cases h
    exact ⟨sub, rest, rfl, rfl, rfl⟩

@[simp] theorem withFetchWord_responses (s : State) (nbits w : Nat) :
    (s.withFetchWord nbits w).responses = s.responses := by
  unfold State.withFetchWord; split <;> rfl

end Sys2Proof.Machine
end

