-- ==== Sys2Proof/Laws/Text.lean ====
section
/-! SUPPORT. Reading the name of the operation off a line of R54. -/

namespace Sys2Proof.Machine

theorem readRequest_encode (rest : List Char) :
    readRequest ("ENCODE ".toList ++ '[' :: rest) =
      (readSymbols rest false none []).map .encode := by
  have hE : "ENCODE ".toList = ['E', 'N', 'C', 'O', 'D', 'E', ' '] := by decide
  have hE' : "ENCODE [".toList = ['E', 'N', 'C', 'O', 'D', 'E', ' ', '['] := by decide
  unfold readRequest
  simp only [hE, hE', List.cons_append, List.nil_append, List.take_succ_cons, List.take_zero,
    if_true, List.drop_succ_cons, List.drop_zero]

theorem readRequest_decode (rest : List Char) :
    readRequest ("DECODE ".toList ++ '[' :: rest) =
      (readSymbols rest false none []).map .decode := by
  have hD : "DECODE ".toList = ['D', 'E', 'C', 'O', 'D', 'E', ' '] := by decide
  have hE' : "ENCODE [".toList = ['E', 'N', 'C', 'O', 'D', 'E', ' ', '['] := by decide
  have hD' : "DECODE [".toList = ['D', 'E', 'C', 'O', 'D', 'E', ' ', '['] := by decide
  unfold readRequest
  simp only [hD, hE', hD', List.cons_append, List.nil_append, List.take_succ_cons, List.take_zero,
    if_true, List.drop_succ_cons, List.drop_zero]
  rw [if_neg (by decide)]

end Sys2Proof.Machine
end

