-- ==== Sys2Proof/Laws/Transaction.lean ====
section
/-! SUPPORT. The responses of the two operations, with their operand checks resolved. -/

namespace Sys2Proof.Machine

theorem serve_encode (c : ValidCodec) (v : SymSeq) :
    serve c (.encode v) = withOperand 4 v fun d => .encOk (codeword c d) := rfl

theorem serve_decode (c : ValidCodec) (v : SymSeq) :
    serve c (.decode v) = withOperand 7 v fun r => decodeCore c.codec.h (buildMap c) r := rfl

/-- ENCODE of four bits. -/
@[simp] theorem serve_encode_seqOfWord (c : ValidCodec) (d : Data) :
    serve c (.encode (seqOfWord d)) = .encOk (codeword c d) := by
  rw [serve_encode, withOperand_seqOfWord]

/-- DECODE of seven bits. -/
@[simp] theorem serve_decode_seqOfWord (c : ValidCodec) (v : Word7) :
    serve c (.decode (seqOfWord v)) = decodeCore c.codec.h (buildMap c) v := by
  rw [serve_decode, withOperand_seqOfWord]

/-- A well-formed operand is the sequence of a word, of the width its operation expects. -/
theorem operandOk_iff (i : Instr) :
    i.OperandOk ↔ (∃ d : Data, i = .encode (seqOfWord d)) ∨ ∃ v : Word7, i = .decode (seqOfWord v) := by
  constructor
  · intro h
    cases i with
    | encode v => exact Or.inl ⟨wordOfSeq 4 v, congrArg Instr.encode (seqOfWord_wordOfSeq (n := 4) h.1 h.2).symm⟩
    | decode v => exact Or.inr ⟨wordOfSeq 7 v, congrArg Instr.decode (seqOfWord_wordOfSeq (n := 7) h.1 h.2).symm⟩
  · rintro (⟨d, rfl⟩ | ⟨v, rfl⟩)
    · exact ⟨length_seqOfWord d, seqOfWord_isBit d⟩
    · exact ⟨length_seqOfWord v, seqOfWord_isBit v⟩

end Sys2Proof.Machine
end

