-- ==== Sys2Proof/Tests/Slice0.lean ====
section
/-! SUPPORT. Small tests whose expected values stand in spec/ (30_encoding.md R55, 95_test_vectors.md S1 and
V1 to V7), the smoke test of WellFormed, and for each statement with hypotheses a witness that meets them,
clause by clause. -/

namespace Sys2Proof.Tests

open Sys2Proof.Machine

/-- The responses after one step that serves the request word `w` right after reset. -/
def served (w : Nat) : Option (List Response) :=
  match step (State.reset.withFetchWord 16 w) with
  | .next t => some t.responses
  | .fault _ => none
  | .refused _ => none

/-- The responses after one step that serves the layer-T request `i` right after reset. -/
def called (i : Instr) : Option (List Response) :=
  match step { State.reset with pending := [.call i] } with
  | .next t => some t.responses
  | .fault _ => none
  | .refused _ => none

/-! ## WellFormed refuses an ill-formed request -/

/-- More than 7 symbols (R51). -/
theorem test_wellFormed_refuses_length : ¬ (Instr.encode [0, 0, 0, 0, 0, 0, 0, 0]).WellFormed := by
  decide

/-- A symbol that is no bit (R51). -/
theorem test_wellFormed_refuses_symbol : ¬ (Instr.decode [1, 0, 2]).WellFormed := by decide

/-- `OperandOk` refuses the wrong length (R100). -/
theorem test_operandOk_refuses_length : ¬ (Instr.decode [1, 0, 1, 1]).OperandOk := by decide

/-- `OperandOk` refuses a symbol that is no bit (R80). -/
theorem test_operandOk_refuses_symbol : ¬ (Instr.encode [1, 0, 2, 1]).OperandOk := by decide

/-! ## Decoding of words written out from R43 to R45 -/

/-- op 0, len 100, payload 0001101 (R55, first row). -/
theorem test_decode_encode_word : decodeTableWord 16 0b0_100_0001101 = some (.encode [1, 0, 1, 1]) := by
  decide

/-- op 1, len 111, payload 0001111 (R55, third row). -/
theorem test_decode_decode_word :
    decodeTableWord 16 0b1_111_0001111 = some (.decode [1, 1, 1, 1, 0, 0, 0]) := by decide

/-- Stray payload bits are ignored (R55, last row). -/
theorem test_decode_stray_bits : decodeTableWord 16 0x27D = some (.encode [1, 0, 1, 1]) := by decide

/-- A number wider than 11 bits is rejected by name (R53). -/
theorem test_decode_rejects_wide : decodeWord 16 0x800 = .error .widerThanReq := by decide

/-- The encoder's words of R55. -/
theorem test_encodeReq_words :
    encodeReq (.encode [1, 0, 1, 1]) = some 0x20D#11 ∧
      encodeReq (.decode [1, 0, 1, 1, 0, 0, 0]) = some 0x78D#11 ∧
      encodeReq (.encode [1, 0, 1]) = some 0x185#11 := by decide

/-- A refused response word keeps its name (R50): err = 3. -/
theorem test_decodeRsp_refuses : decodeRsp .encode 0x3380#14 = .error .errUnused := by decide

/-! ## The two operations -/

/-- ENCODE (S1, and V1 row `[0,1,1,0]`). -/
theorem test_encode_result :
    served 0x20D = some [.encOk 0x0D#7] ∧ called (.encode [0, 1, 1, 0]) = some [.encOk 0x26#7] := by
  decide

/-- ENCODE of ill-formed operands (V6): the length check comes first. -/
theorem test_encode_errors :
    called (.encode [1, 0, 1, -1]) = some [.err .invalidBit] ∧
      called (.encode [2, 0, 1]) = some [.err .invalidLength] := by decide

/-- DECODE (S1; V4 row 0, 1, a double error): the position and the data. -/
theorem test_decode_result :
    served 0x78F = some [.decOk 0xD#4 (.errorCorrected 1)] ∧
      called (.decode [0, 1, 1, 1, 0, 0, 0]) = some [.decOk 0xE#4 (.errorCorrected 6)] := by decide

/-- DECODE of ill-formed operands (V6, V7). -/
theorem test_decode_errors :
    called (.decode [1, 0, 1, 1, 0, 0, 2]) = some [.err .invalidBit] ∧
      served 0x60D = some [.err .invalidLength] := by decide

/-- FE's words for the rows of R55. -/
theorem test_front_end_words :
    feRsp 0x20D#11 = 0x038D#14 ∧ feRsp 0x78D#11 = 0x038D#14 ∧ feRsp 0x78F#11 = 0x048D#14 ∧
      feRsp 0x78E#11 = 0x070E#14 ∧ feRsp 0x185#11 = 0x1380#14 ∧ feRsp 0x60D#11 = 0x1380#14 ∧
      feRsp 0x27D#11 = 0x038D#14 := by decide

/-- The line of a transaction (R54, R80): `ENCODE [2,0,-1] -> ERR InvalidLength`. -/
theorem test_transaction_text :
    transactionText (.encode [2, 0, -1]) (.err .invalidLength) =
      "ENCODE [2,0,-1] -> ERR InvalidLength".toList := by decide

/-- The line of a DECODE (R54, S1). -/
theorem test_decode_text :
    responseText (.decOk 0xD#4 (.errorCorrected 1)) =
      "OK data=[1,0,1,1] status=ErrorCorrected(1)".toList := by decide

/-- Lines of V6 read back as requests (R54), and a line that is none. -/
theorem test_read_request :
    readRequest "ENCODE [255,0,0,-1]".toList = some (.encode [255, 0, 0, -1]) ∧
      readRequest "DECODE []".toList = some (.decode []) ∧
      readRequest "DECODE [1,]".toList = none := by decide

/-! ## Witnesses -/

/-- A state with one request word pending and one response delivered. -/
def oneWord (q : ReqWord) : State := { pending := [.word q], responses := [.err .invalidLength] }

/-- EncodeComputesTheDotProducts, clause by clause: lengths 3 and 5, a symbol -1, four bits. -/
theorem witness_encode_clauses :
    ([1, 0, 1] : SymSeq).length ≠ 4 ∧ ([1, 0, 1, 1, 0] : SymSeq).length ≠ 4 ∧
      (([1, 0, 1, -1] : SymSeq).length = 4 ∧ ∃ x ∈ ([1, 0, 1, -1] : SymSeq), x ≠ 0 ∧ x ≠ 1) ∧
      (([1, 1, 1, 1] : SymSeq).length = 4 ∧ ∀ x ∈ ([1, 1, 1, 1] : SymSeq), x = 0 ∨ x = 1) := by
  decide

/-- DecodeFollowsTheFourSteps, clause by clause: lengths 6 and 8, a symbol 2, seven bits. -/
theorem witness_decode_clauses :
    ([1, 0, 1, 1, 0, 0] : SymSeq).length ≠ 7 ∧ ([1, 0, 1, 1, 0, 0, 0, 0] : SymSeq).length ≠ 7 ∧
      (([1, 0, 1, 1, 0, 0, 2] : SymSeq).length = 7 ∧
        ∃ x ∈ ([1, 0, 1, 1, 0, 0, 2] : SymSeq), x ≠ 0 ∧ x ≠ 1) ∧
      (([1, 1, 1, 1, 0, 0, 0] : SymSeq).length = 7 ∧
        ∀ x ∈ ([1, 1, 1, 1, 0, 0, 0] : SymSeq), x = 0 ∨ x = 1) := by decide

/-- WrongLengthIsInvalidLength, for both operations. -/
theorem witness_wrong_length :
    (Instr.encode [1, 0, 1, 1, 0]).operand.length ≠ (Instr.encode [1, 0, 1, 1, 0]).op.arity ∧
      (Instr.decode []).operand.length ≠ (Instr.decode []).op.arity := by decide

/-- NonBitSymbolIsInvalidBit, for both operations. -/
theorem witness_non_bit :
    ((Instr.encode [255, 0, 0, 0]).operand.length = (Instr.encode [255, 0, 0, 0]).op.arity ∧
        (255 : Sym) ∈ (Instr.encode [255, 0, 0, 0]).operand ∧ (255 : Sym) ≠ 0 ∧ (255 : Sym) ≠ 1) ∧
      (Instr.decode [-1, 0, 1, 1, 0, 0, 0]).operand.length =
          (Instr.decode [-1, 0, 1, 1, 0, 0, 0]).op.arity ∧
        (-1 : Sym) ∈ (Instr.decode [-1, 0, 1, 1, 0, 0, 0]).operand ∧ (-1 : Sym) ≠ 0 ∧
        (-1 : Sym) ≠ 1 := by decide

/-- LengthErrorComesFirst, for both operations. -/
theorem witness_length_first :
    ((Instr.encode [2, 0, 1]).operand.length ≠ (Instr.encode [2, 0, 1]).op.arity ∧
        (2 : Sym) ∈ (Instr.encode [2, 0, 1]).operand ∧ (2 : Sym) ≠ 0 ∧ (2 : Sym) ≠ 1) ∧
      (Instr.decode [3, 0, 1, 1]).operand.length ≠ (Instr.decode [3, 0, 1, 1]).op.arity ∧
        (3 : Sym) ∈ (Instr.decode [3, 0, 1, 1]).operand ∧ (3 : Sym) ≠ 0 ∧ (3 : Sym) ≠ 1 := by
  decide

/-- StepServesTheNextRequest, both clauses. -/
theorem witness_next_request :
    (oneWord 0x20D#11).pending = .word 0x20D#11 :: [] ∧
      ({ pending := [.call (.encode [2])], responses := [] } : State).pending =
        .call (.encode [2]) :: [] := by decide

/-- PlacedWordIsServedNext. -/
theorem witness_placed_word : decodeTableWord 16 0x000 = some (.encode []) := by decide

/-- RunDeliversTheResponsesInOrder, with a program of one request. -/
theorem witness_run : 1 ≤ (oneWord 0x20D#11).pending.length := by decide

/-- StepKeepsTheRunSafe: a safe state whose step answers a next state. -/
theorem witness_safe_step : (oneWord 0x20D#11).Safe ∧
    step (oneWord 0x20D#11) =
      .next { pending := [], responses := [.err .invalidLength, .encOk 0x0D#7] } := by
  refine ⟨by decide, by rfl⟩

/-- RequestRoundTrip, at the greatest length. -/
theorem witness_round_trip : (Instr.encode [1, 0, 1, 1, 0, 0, 1]).WellFormed := by decide

/-- RequestWordsCarryExactlyTheBitOperands: `exec` of a request word answers a next state. -/
theorem witness_exec_word : exec (decodeReq 0x60D#11) State.reset =
    .next { pending := [], responses := [.err .invalidLength] } := by rfl

/-- StrayPayloadBitsAreIgnored: an index below `len`, and two words that differ above it. -/
theorem witness_stray_bits :
    3 < (decodeReq 0x20D#11).operand.length ∧
      (0x20D#11).extractLsb' 7 4 = (0x27D#11).extractLsb' 7 4 ∧
      ∀ k, k < ((0x20D#11).extractLsb' 7 3).toNat →
        (0x20D#11).getLsbD k = (0x27D#11).getLsbD k := by decide

/-- OpAloneSelectsTheOperation, both clauses. -/
theorem witness_op : 0x3FF#11 &&& 0x400#11 = 0x000#11 ∧ 0x400#11 &&& 0x400#11 = 0x400#11 := by decide

/-- NoRequestWordIsReserved and FrontEndAddsNothing, the four kinds of word. -/
theorem witness_request_words :
    (oneWord 0x28D#11).pending = .word 0x28D#11 :: [] ∧
      ((0x28D#11)[10] = false ∧ (0x28D#11).extractLsb' 7 3 ≠ 4#3) ∧
      ((0x70D#11)[10] = true ∧ (0x70D#11).extractLsb' 7 3 ≠ 7#3) ∧
      ((0x20D#11)[10] = false ∧ (0x20D#11).extractLsb' 7 3 = 4#3) ∧
      ((0x78D#11)[10] = true ∧ (0x78D#11).extractLsb' 7 3 = 7#3) := by decide

/-- ResponseWordFieldsAndRecovery: responses that answer each operation, with equal words. -/
theorem witness_answers :
    (Response.encOk 0x0D#7).Answers .encode ∧ (Response.decOk 0xD#4 .noError).Answers .decode ∧
      (Response.err .invalidBit).Answers .encode ∧
      encodeRsp (.err .invalidBit) = encodeRsp (.err .invalidBit) := by decide

/-- ExcludedResponseWords: a next state of a layer-T request and of a request word, one with `err` not 0,
and a word for each excluded combination. -/
theorem witness_excluded_words :
    exec (.encode [1, 0, 2, 1]) State.reset =
        .next { pending := [], responses := [.err .invalidBit] } ∧
      rspErr (encodeRsp (.err .invalidBit)) ≠ 0#2 ∧
      rspErr 0x3380#14 = 3#2 ∧ rspStatus 0x0F80#14 = 3#2 ∧
      (rspErr 0x1381#14 ≠ 0#2 ∧ rspOut 0x1381#14 ≠ 0#7) ∧
      (rspStatus 0x0780#14 = 1#2 ∧ rspPos 0x0780#14 = 7#3) ∧
      (rspStatus 0x0000#14 ≠ 1#2 ∧ rspPos 0x0000#14 ≠ 7#3) ∧
      rspErr 0x2380#14 = 2#2 ∧ (rspErr 0x0B80#14 ≠ 2#2 ∧ rspStatus 0x0B80#14 = 2#2) := by
  refine ⟨by rfl, by decide⟩

/-- SleAnswersAsMap: a pattern the map finds and one it does not. -/
theorem witness_sle :
    lookup (buildMap decided) 7#3 = some 1 ∧ lookup (buildMap decided) 0#3 = none := by decide

/-- MapIsABijection and ConsequencesOfValidity: a non-zero pattern, and two codewords that differ. -/
theorem witness_patterns :
    (1#3 : Syndrome) ≠ 0#3 ∧ codeword decided 0x1#4 ≠ codeword decided 0x2#4 := by decide

/-- ConsequencesOfValidity: a word that is one bit away from a codeword. -/
theorem witness_neighbour : (0x0F#7 : Word7) = codeword decided 0xD#4 ^^^ unitAt 1 := by decide

/-- SixCandidateGenerators: the decided pair reproduces the source's example. -/
theorem witness_example : vecMat 0b1101#4 decided.codec.g = 0b0001101#7 := by decide

/-- ChoiceOfParityCheckIsUnobservable: an invertible matrix, its own inverse, that is not the identity. -/
theorem witness_invertible :
    ∀ v : BitVec 3, matVec #v[3#3, 2#3, 4#3] (matVec #v[3#3, 2#3, 4#3] v) = v := by decide

/-- EncodeIsSystematic: equal responses of equal data. -/
theorem witness_equal_responses :
    serve decided (.encode (seqOfWord 0x5#4)) = serve decided (.encode [1, 0, 1, 0]) := by decide

/-- CodewordsHaveZeroSyndrome, RoundTrip and ZeroSyndromeExactlyForCodewords: an ENCODE that returns a
codeword, which has zero syndrome. -/
theorem witness_codeword :
    serve decided (.encode [1, 0, 1, 1]) = .encOk 0x0D#7 ∧ syndrome decidedH 0x0D#7 = 0#3 := by decide

/-- EncodeTable: a non-zero data vector. -/
theorem witness_non_zero_data : (0xF#4 : Data) ≠ 0#4 := by decide

/-- SyndromeIgnoresTheCodeword and DoubleErrorIsMiscorrected: two positions. -/
theorem witness_positions : (0 : Position) ≠ 6 := by decide

/-- TwoOrMoreErrorsGiveWrongData: weights 2 and 7. -/
theorem witness_weights : 2 ≤ weight (0x41#7 : Word7) ∧ 2 ≤ weight (0x7F#7 : Word7) := by decide

/-- CorrectFlipsExactlyTheFoundBit: a syndrome that the map finds, and a map that lacks every key. -/
theorem witness_correct :
    (syndrome decidedH 0x0F#7 ≠ 0#3 ∧ lookup (buildMap decided) (syndrome decidedH 0x0F#7) = some 1) ∧
      lookup (Vector.replicate 8 none) (syndrome decidedH 0x0F#7) = none := by decide

/-- ParityCorrectionLeavesTheData: a correction in a parity position, one in a data position, a zero
syndrome and a map that lacks the key. -/
theorem witness_parity :
    decodeCore decidedH (buildMap decided) 0x06#7 = .decOk 0x6#4 (.errorCorrected 5) ∧
      decodeCore decidedH (buildMap decided) 0x0C#7 = .decOk 0xD#4 (.errorCorrected 0) ∧
      decodeCore decidedH (buildMap decided) 0x0D#7 = .decOk 0xD#4 .noError ∧
      decodeCore decidedH (Vector.replicate 8 none) 0x0F#7 = .decOk 0xF#4 .uncorrectableError := by
  decide

end Sys2Proof.Tests
end

section
/-! Purity of a transaction (spec/00_scope.md R9). -/

namespace Sys2Proof.Machine

/-- Settles O9: the one response is `serve decided i`, which takes no state, and `exec` delivers it. -/
theorem responseDependsOnTheRequestAlone : Obligations.ResponseDependsOnTheRequestAlone := by
  intro i
  refine ⟨serve decided i, fun s => ?_⟩
  rw [exec_eq_deliver, deliver_eq]

end Sys2Proof.Machine
end

section
/-! Products of words and matrices over GF(2) (spec/40_gf2_arithmetic.md R64, R65): both are additive, and an
additive map is known by its values on the unit words. -/

namespace Sys2Proof.Machine

/-- A map of words takes XOR to XOR. -/
def XorAdditive {m n : Nat} (f : BitVec m → BitVec n) : Prop :=
  ∀ v w, f (v ^^^ w) = f v ^^^ f w

theorem XorAdditive.map_zero {m n : Nat} {f : BitVec m → BitVec n} (hf : XorAdditive f) :
    f 0#m = 0#n := by
  simpa using hf 0#m 0#m

theorem XorAdditive.eq_zero_iff {m n : Nat} {f : BitVec m → BitVec n} (hf : XorAdditive f)
    (hinj : Function.Injective f) {v : BitVec m} : f v = 0#n ↔ v = 0#m := by
  rw [← hf.map_zero, hinj.eq_iff]

theorem XorAdditive.comp {m n k : Nat} {f : BitVec n → BitVec k} {g : BitVec m → BitVec n}
    (hf : XorAdditive f) (hg : XorAdditive g) : XorAdditive fun v => f (g v) := fun v w =>
  (congrArg f (hg v w)).trans (hf _ _)

theorem xorAdditive_zero {m n : Nat} : XorAdditive fun _ : BitVec m => 0#n := fun _ _ => by simp

theorem matVec_xorAdditive {r c : Nat} (m : BitMatrix r c) : XorAdditive (matVec m) := fun v w =>
  word_ext fun i => by simp [dot2_xor_right]

theorem vecMat_xor {r c : Nat} (d e : BitVec r) (m : BitMatrix r c) :
    vecMat (d ^^^ e) m = vecMat d m ^^^ vecMat e m :=
  word_ext fun j => by simp [dot2_comm _ (column m _), dot2_xor_right]

theorem vecMat_xorAdditive {r c : Nat} (m : BitMatrix r c) :
    XorAdditive fun d : BitVec r => vecMat d m := fun d e => vecMat_xor d e m

@[simp] theorem matVec_unitAt {r c : Nat} (m : BitMatrix r c) (p : Fin c) :
    matVec m (unitAt p) = column m p :=
  word_ext fun i => by simp [dot2_unitAt]

@[simp] theorem vecMat_unitAt {r c : Nat} (m : BitMatrix r c) (i : Fin r) :
    vecMat (unitAt i) m = m[i] :=
  word_ext fun j => by simp [dot2_comm (unitAt i), dot2_unitAt]

/-- Every word is reached from zero by adding unit words. The induction is over the set of its 1s. -/
theorem word_induction {n : Nat} {P : BitVec n → Prop} (zero : P 0#n)
    (add : ∀ v p, P v → P (v ^^^ unitAt p)) (w : BitVec n) : P w := by
  have ones : ∀ s : Finset (Fin n), P (bitsOf n fun i => decide (i ∈ s)) := fun s => by
    induction s using Finset.induction_on with
    | empty =>
      have h : (bitsOf n fun i => decide (i ∈ (∅ : Finset (Fin n)))) = 0#n :=
        word_ext fun i => by simp
      exact h ▸ zero
    | insert p s hp ih =>
      have h : (bitsOf n fun i => decide (i ∈ insert p s)) =
          (bitsOf n fun i => decide (i ∈ s)) ^^^ unitAt p := word_ext fun i => by
        by_cases hi : i = p
        · simp [hi, hp]
        · simp [hi, Fin.val_ne_of_ne hi]
      exact h ▸ add _ p ih
  have hw : (bitsOf n fun i => decide (i ∈ Finset.univ.filter fun i : Fin n => w[i])) = w :=
    word_ext fun i => by simp
  exact hw ▸ ones _

/-- Additive maps that agree on the unit words are equal. -/
theorem XorAdditive.ext {m n : Nat} {f g : BitVec m → BitVec n} (hf : XorAdditive f)
    (hg : XorAdditive g) (h : ∀ p, f (unitAt p) = g (unitAt p)) (v : BitVec m) : f v = g v := by
  induction v using word_induction with
  | zero => rw [hf.map_zero, hg.map_zero]
  | add v p ih => rw [hf, hg, ih, h]

/-- The matrix product `a * m`, row by row. -/
def matMul {q r c : Nat} (a : BitMatrix q r) (m : BitMatrix r c) : BitMatrix q c :=
  a.map fun row => vecMat row m

theorem column_matMul {q r c : Nat} (a : BitMatrix q r) (m : BitMatrix r c) (j : Fin c) :
    column (matMul a m) j = matVec a (column m j) :=
  word_ext fun i => by simp [matMul]

theorem matVec_matMul {q r c : Nat} (a : BitMatrix q r) (m : BitMatrix r c) (v : BitVec c) :
    matVec (matMul a m) v = matVec a (matVec m v) :=
  (matVec_xorAdditive _).ext ((matVec_xorAdditive a).comp (matVec_xorAdditive m))
    (fun p => by rw [matVec_unitAt, matVec_unitAt, column_matMul]) v

end Sys2Proof.Machine
end

section
/-! What validity (spec/41_construction.md R73) gives the constants G, H and MAP, and the statements of
spec/10_state.md about them. -/

namespace Sys2Proof.Machine

/-- R73 item 3 as a product: the syndrome of a row of G. -/
theorem matVec_generator_row (c : ValidCodec) (i : Fin 4) : matVec c.codec.h c.codec.g[i] = 0#3 :=
  word_ext fun r => by simpa using c.orthogonal r i

/-- R85: a codeword is a sum of rows of G, and `H * d * G` is additive in d. -/
theorem syndrome_codeword (c : ValidCodec) (d : Data) :
    syndrome c.codec.h (codeword c d) = 0#3 :=
  ((matVec_xorAdditive c.codec.h).comp (vecMat_xorAdditive c.codec.g)).ext xorAdditive_zero
    (fun i => by rw [vecMat_unitAt, matVec_generator_row]) d

/-- Everything ENCODE can answer with `EncOk`: a codeword. -/
theorem serve_encode_eq_encOk {c : ValidCodec} {v : SymSeq} {w : Word7}
    (h : serve c (.encode v) = .encOk w) : ∃ d : Data, v = seqOfWord d ∧ w = codeword c d := by
  rw [serve_encode] at h
  by_cases hl : v.length = 4
  · by_cases hb : ∀ x ∈ v, IsBit x
    · rw [withOperand_ok _ hl hb] at h
      exact ⟨wordOfSeq 4 v, (seqOfWord_wordOfSeq hl hb).symm, (Response.encOk.inj h).symm⟩
    · rw [withOperand_bit _ hl hb] at h; cases h
  · rw [withOperand_length _ hl] at h; cases h

/-- Settles O40: what ENCODE returns is a codeword, a sum of rows of G, and each row has zero syndrome. -/
theorem codewordsHaveZeroSyndrome : Obligations.CodewordsHaveZeroSyndrome := by
  intro c v w h
  obtain ⟨d, -, rfl⟩ := serve_encode_eq_encOk h
  exact syndrome_codeword c d

/-- Settles O32, a closed table: the loop of R71 and the columns are evaluated. -/
theorem decidedMapIsTheTable : Obligations.DecidedMapIsTheTable := by
  constructor
  · show buildMap decided = _
    decide
  · show (List.finRange 7).map (column decidedH) = _
    decide

/-- R18, R71: MAP finds p exactly for column p of H. -/
theorem lookup_buildMap_eq_some (c : ValidCodec) (s : Syndrome) (p : Position) :
    lookup (buildMap c) s = some p ↔ column c.codec.h p = s := by
  have hfind : lookup (buildMap c) s =
      (List.finRange 7).reverse.find? fun j => column c.codec.h j = s := by
    rw [buildMap, lookup_foldl_mapColumn]
    cases (List.finRange 7).reverse.find? fun j => decide (column c.codec.h j = s) <;> simp [lookup]
  rw [hfind]
  constructor
  · intro h
    simpa using List.find?_some h
  · intro h
    cases hf : (List.finRange 7).reverse.find? fun j => decide (column c.codec.h j = s) with
    | none => exact absurd h (by simpa using List.find?_eq_none.mp hf p (by simp))
    | some k =>
      have hk : column c.codec.h k = s := by simpa using List.find?_some hf
      rw [c.column_injective (hk.trans h.symm)]

/-! ## The choice of H (R20) -/

/-- The pair `(G, a * H)`, valid because an injective product keeps the columns distinct and non-zero. -/
def changeParityCheck (c : ValidCodec) (a : BitMatrix 3 3) (ha : Function.Injective (matVec a)) :
    ValidCodec where
  codec := ⟨c.codec.g, matMul a c.codec.h⟩
  valid := by
    refine ⟨c.systematic, fun r i => ?_, fun j => ?_, fun j k hjk => ?_⟩
    · have hrow : matVec (matMul a c.codec.h) c.codec.g[i] = 0#3 := by
        rw [matVec_matMul, matVec_generator_row, (matVec_xorAdditive a).map_zero]
      simpa using congrArg (fun w : BitVec 3 => w[r]) hrow
    · rw [column_matMul, Ne, (matVec_xorAdditive a).eq_zero_iff ha]
      exact c.column_ne_zero j
    · rw [column_matMul, column_matMul] at hjk
      exact c.column_injective (ha hjk)

section
variable (c : ValidCodec) (a : BitMatrix 3 3) (ha : Function.Injective (matVec a))

theorem column_changeParityCheck (j : Position) :
    column (changeParityCheck c a ha).codec.h j = matVec a (column c.codec.h j) :=
  column_matMul a c.codec.h j

theorem syndrome_changeParityCheck (v : Word7) :
    syndrome (changeParityCheck c a ha).codec.h v = matVec a (syndrome c.codec.h v) :=
  matVec_matMul a c.codec.h v

/-- The keys of the new MAP are the images of the old ones. -/
theorem lookup_changeParityCheck (s : Syndrome) :
    lookup (buildMap (changeParityCheck c a ha)) (matVec a s) = lookup (buildMap c) s :=
  Option.ext fun p => by
    rw [lookup_buildMap_eq_some, lookup_buildMap_eq_some, column_changeParityCheck, ha.eq_iff]

theorem statusOf_changeParityCheck (s : Syndrome) :
    statusOf (buildMap (changeParityCheck c a ha)) (matVec a s) = statusOf (buildMap c) s := by
  simp only [statusOf, (matVec_xorAdditive a).eq_zero_iff ha, lookup_changeParityCheck]

theorem serve_changeParityCheck (i : Instr) : serve (changeParityCheck c a ha) i = serve c i := by
  cases i with
  | encode v => rfl
  | decode v =>
    simp only [serve_decode, decodeCore, syndrome_changeParityCheck, statusOf_changeParityCheck]

end

/-- Settles O37: with `a` inverted by `b`, the pair `(G, a * H)` is valid, and the status of a word is the
same because MAP's keys and the syndromes both go through `a`. -/
theorem choiceOfParityCheckIsUnobservable : Obligations.ChoiceOfParityCheckIsUnobservable := by
  intro c a b hba
  have ha : Function.Injective (matVec a) := Function.LeftInverse.injective hba
  exact ⟨changeParityCheck c a ha, rfl, column_changeParityCheck c a ha,
    syndrome_changeParityCheck c a ha, serve_changeParityCheck c a ha⟩

/-! ## The candidates for P (note D1) -/

/-- The row i of P, where `G = [I4 | P]` (R14). -/
def parityRow (c : ValidCodec) (i : Fin 4) : BitVec 3 := c.codec.g[i].extractLsb' 4 3

/-- The word with the given parity bits and no data bit set. -/
def parityWord (p : BitVec 3) : Word7 := p ++ 0#4

theorem getElem_parityWord (p : BitVec 3) (j : Nat) (h : j < 7) :
    (parityWord p)[j] = if h4 : j < 4 then false else p[j - 4] :=
  (BitVec.getElem_append (x := p) (y := 0#4) h).trans (by simp)

/-- R14: a row of G is a unit word with its row of P. -/
theorem generator_row_eq (c : ValidCodec) (i : Fin 4) :
    c.codec.g[i] = unitAt (i.castLE (by decide)) ^^^ parityWord (parityRow c i) :=
  word_ext fun j => by
    by_cases hj : j.val < 4
    · have hdata : c.codec.g[i.val][j.val] = decide (i.val = j.val) := by
        simpa [Fin.ext_iff] using c.systematic i ⟨j, hj⟩
      simp [getElem_parityWord, hj, hdata, eq_comm (a := i.val)]
    · have hji : j.val ≠ i.val := by omega
      have hsum : 4 + (j.val - 4) = j.val := by omega
      simp [getElem_parityWord, parityRow, hj, hji, hsum]

/-- `H * G^T = 0` solved for a data column of H. -/
theorem column_data_eq (c : ValidCodec) (i : Fin 4) :
    column c.codec.h (i.castLE (by decide)) = matVec c.codec.h (parityWord (parityRow c i)) := by
  have h := matVec_generator_row c i
  rw [generator_row_eq, matVec_xorAdditive, matVec_unitAt] at h
  exact BitVec.xor_eq_zero_iff.mp h

theorem unitAt_parity_position (j : Fin 3) :
    (unitAt (Fin.natAdd 4 j) : Word7) = parityWord (unitAt j) := by
  revert j; decide

theorem parityRow_injective (c : ValidCodec) : Function.Injective (parityRow c) := fun i k h =>
  Fin.castLE_injective (by decide)
    (c.column_injective (by rw [column_data_eq, column_data_eq, h]))

theorem parityRow_ne_zero (c : ValidCodec) (i : Fin 4) : parityRow c i ≠ 0#3 := fun h =>
  c.column_ne_zero (i.castLE (by decide)) (by
    rw [column_data_eq, h]
    exact (matVec_xorAdditive c.codec.h).map_zero)

theorem parityRow_ne_unitAt (c : ValidCodec) (i : Fin 4) (j : Fin 3) :
    parityRow c i ≠ unitAt j := by
  intro h
  have hcol : column c.codec.h (i.castLE (by decide)) = column c.codec.h (Fin.natAdd 4 j) := by
    rw [column_data_eq, h, ← unitAt_parity_position, matVec_unitAt]
  have hval : i.val = 4 + j.val := congrArg Fin.val (c.column_injective hcol)
  omega

/-- Note D1 (b): each row of P has at least two 1s. -/
theorem two_le_weight_parityRow (c : ValidCodec) (i : Fin 4) : 2 ≤ weight (parityRow c i) := by
  have h : ∀ p : BitVec 3, p ≠ 0#3 → (∀ j, p ≠ unitAt j) → 2 ≤ weight p := by decide
  exact h _ (parityRow_ne_zero c i) (parityRow_ne_unitAt c i)

/-- Note D1 (c): the worked example says that three rows of P sum to zero. -/
theorem parityRow_sum_of_example {c : ValidCodec} (h : vecMat 0b1101#4 c.codec.g = 0b0001101#7) :
    parityRow c 3 = parityRow c 0 ^^^ parityRow c 2 := by
  have hd : 0b1101#4 = unitAt 0 ^^^ unitAt 2 ^^^ unitAt 3 := by decide
  rw [hd, vecMat_xor, vecMat_xor] at h
  simp only [vecMat_unitAt] at h
  have hp : parityRow c 0 ^^^ parityRow c 2 ^^^ parityRow c 3 = 0#3 := by
    simpa [parityRow, BitVec.extractLsb'_xor] using congrArg (fun w => w.extractLsb' 4 3) h
  exact (BitVec.xor_eq_zero_iff.mp hp).symm

/-- Four different rows of weight 2 or more, three of them with sum zero: six ways. -/
theorem six_parity_parts : ∀ p q r : BitVec 3, 2 ≤ weight p → 2 ≤ weight q → 2 ≤ weight r →
    2 ≤ weight (p ^^^ r) → [p, q, r, p ^^^ r].Nodup →
    #v[p, q, r, p ^^^ r] ∈
      [#v[6#3, 7#3, 5#3, 3#3], #v[6#3, 7#3, 3#3, 5#3], #v[5#3, 7#3, 6#3, 3#3],
       #v[5#3, 7#3, 3#3, 6#3], #v[3#3, 7#3, 6#3, 5#3], #v[3#3, 7#3, 5#3, 6#3]] := by
  decide

/-- Settles O36, as note D1 argues: validity makes the rows of P different and of weight 2 or more, and the
example makes rows 0, 2 and 3 sum to zero. -/
theorem sixCandidateGenerators : Obligations.SixCandidateGenerators := by
  intro c h
  have hsum := parityRow_sum_of_example h
  have hrows : c.codec.g.map (fun row => row.extractLsb' 4 3) =
      #v[parityRow c 0, parityRow c 1, parityRow c 2, parityRow c 0 ^^^ parityRow c 2] := by
    rw [← hsum]
    ext i hi : 1
    interval_cases i <;> simp [parityRow]
  have hnodup : [parityRow c 0, parityRow c 1, parityRow c 2, parityRow c 3].Nodup :=
    List.nodup_ofFn.mpr (parityRow_injective c)
  rw [hrows]
  exact six_parity_parts _ _ _ (two_le_weight_parityRow c 0) (two_le_weight_parityRow c 1)
    (two_le_weight_parityRow c 2) (hsum ▸ two_le_weight_parityRow c 3) (hsum ▸ hnodup)

end Sys2Proof.Machine
end

section
/-! Two transactions in a row (spec/20_memory.md R37). -/

namespace Sys2Proof.Machine

/-- What the first transaction leaves behind plays no part in the second one's response. -/
theorem exec_then_exec (i j : Instr) (s : State) :
    ∃ t, exec i s = .next t ∧ exec j t =
      .next { s with responses := s.responses ++ [serve decided i, serve decided j] } := by
  have hi : exec i s = .next { s with responses := s.responses ++ [serve decided i] } := by
    rw [exec_eq_deliver, deliver_eq]
  refine ⟨_, hi, ?_⟩
  rw [exec_eq_deliver, deliver_eq, List.append_assoc, List.singleton_append]

/-- Settles O10: the responses are those of `serve decided`, which takes no state, so each order is one use of
`exec_then_exec`. -/
theorem transactionsCommute : Obligations.TransactionsCommute := by
  intro i j s s'
  obtain ⟨t, hi, hij⟩ := exec_then_exec i j s
  obtain ⟨t', hj, hji⟩ := exec_then_exec j i s'
  exact ⟨serve decided i, serve decided j, t, t', hi, hij, hj, hji⟩

end Sys2Proof.Machine
end

section
/-! The response to a request, by the checks its operand passes (spec/30_encoding.md R40). -/

namespace Sys2Proof.Machine

variable {c : ValidCodec} {i : Instr}

/-- R121: the length check comes first. -/
theorem serve_of_length_ne (h : i.operand.length ≠ i.op.arity) :
    serve c i = .err .invalidLength := by
  cases i with
  | encode v => rw [serve_encode]; exact withOperand_length _ h
  | decode v => rw [serve_decode]; exact withOperand_length _ h

/-- R122: the bit check comes second. -/
theorem serve_of_not_bit (hl : i.operand.length = i.op.arity) (hb : ¬ ∀ x ∈ i.operand, IsBit x) :
    serve c i = .err .invalidBit := by
  cases i with
  | encode v => rw [serve_encode]; exact withOperand_bit _ hl hb
  | decode v => rw [serve_decode]; exact withOperand_bit _ hl hb

/-- Everything an operation can answer to an ill-formed operand. -/
theorem serve_of_not_operandOk (h : ¬ i.OperandOk) : ∃ e, serve c i = .err e := by
  by_cases hl : i.operand.length = i.op.arity
  · exact ⟨_, serve_of_not_bit hl fun hb => h ⟨hl, hb⟩⟩
  · exact ⟨_, serve_of_length_ne hl⟩

/-- Everything an operation can answer to a well-formed operand: a result of its own kind. -/
theorem serve_of_operandOk (h : i.OperandOk) :
    (i.op = .encode ∧ ∃ w, serve c i = .encOk w) ∨
      (i.op = .decode ∧ ∃ d s, serve c i = .decOk d (statusOf (buildMap c) s)) := by
  obtain ⟨d, rfl⟩ | ⟨v, rfl⟩ := (operandOk_iff i).mp h
  · exact Or.inl ⟨rfl, _, serve_encode_seqOfWord c d⟩
  · exact Or.inr ⟨rfl, _, _, serve_decode_seqOfWord c v⟩

theorem serve_answers (c : ValidCodec) (i : Instr) : (serve c i).Answers i.op := by
  by_cases h : i.OperandOk
  · obtain ⟨hop, w, hw⟩ | ⟨hop, d, s, hd⟩ := serve_of_operandOk (c := c) h
    · rw [hw]; exact hop
    · rw [hd]; exact hop
  · obtain ⟨e, he⟩ := serve_of_not_operandOk (c := c) h
    rw [he]; trivial

theorem serve_eq_err_iff : (∃ e, serve c i = .err e) ↔ ¬ i.OperandOk := by
  refine ⟨fun ⟨e, he⟩ h => ?_, serve_of_not_operandOk⟩
  obtain ⟨-, w, hw⟩ | ⟨-, d, s, hd⟩ := serve_of_operandOk (c := c) h
  · rw [hw] at he; cases he
  · rw [hd] at he; cases he

/-- R122 read backwards: an operand of bits never gets `InvalidBit`. -/
theorem serve_ne_invalidBit (hb : ∀ x ∈ i.operand, IsBit x) : serve c i ≠ .err .invalidBit := by
  intro h
  by_cases hl : i.operand.length = i.op.arity
  · exact serve_eq_err_iff.mp ⟨_, h⟩ ⟨hl, hb⟩
  · rw [serve_of_length_ne hl] at h; cases h

/-- Everything `exec` can do, as a fact about the state it answers. -/
theorem exec_next {s t : State} (h : exec i s = .next t) :
    t = { s with responses := s.responses ++ [serve decided i] } := by
  rw [exec_eq_deliver, deliver_eq] at h
  exact (Host.Outcome.next.inj h).symm

/-- Settles O8: `exec` delivers `serve decided i`, and an operand that passes both checks gets a result of
the request's kind where any other gets an error. -/
theorem responseIsOfTheRequestsKind : Obligations.ResponseIsOfTheRequestsKind := by
  intro i s
  refine ⟨serve decided i, ?_, serve_answers decided i, serve_eq_err_iff⟩
  rw [exec_eq_deliver, deliver_eq]

end Sys2Proof.Machine
end

section
/-! Request words (spec/30_encoding.md R42 to R46, R51). -/

namespace Sys2Proof

/-! ## The fields of a word -/

theorem reqOp_eq_encode {q : ReqWord} (h : q[10] = false) : reqOp q = .encode := by
  simp [reqOp, h]

theorem reqOp_eq_decode {q : ReqWord} (h : q[10] = true) : reqOp q = .decode := by
  simp [reqOp, h]

/-- R44: symbol k of the operand is bit k of the word. -/
theorem getElem_reqOperand (q : ReqWord) (k : Nat) (h : k < (reqOperand q).length) :
    (reqOperand q)[k] = symOfBit (q.getLsbD k) := by
  have hk : k < 7 := (length_reqOperand q ▸ h).trans_le (reqLen_le q)
  simp [reqOperand, reqPayload, hk]

/-- The operand of a word with `len = n` is the sequence of its low n bits. -/
theorem reqOperand_eq_seqOfWord (q : ReqWord) :
    reqOperand q = Machine.seqOfWord (q.extractLsb' 0 (reqLen q)) := by
  refine List.ext_getElem (by simp) fun k hk _ => ?_
  have hlen : k < reqLen q := length_reqOperand q ▸ hk
  rw [getElem_reqOperand]
  simp [Machine.seqOfWord]

/-! ## The round trip -/

/-- R7: the bits of `pack(v)` are the symbols of v. -/
theorem testBit_pack {v : SymSeq} (hb : ∀ x ∈ v, IsBit x) (k : Nat) (hk : k < v.length) :
    symOfBit ((pack v).testBit k) = v[k] := by
  induction v generalizing k with
  | nil => cases hk
  | cons x xs ih =>
    rw [List.forall_mem_cons] at hb
    obtain ⟨hx, hxs⟩ := hb
    cases k with
    | zero => rcases hx with rfl | rfl <;> simp [pack, symOfBit, Nat.add_mod]
    | succ k =>
      have hhead : (x.toNat + 2 * pack xs) / 2 = pack xs := by
        rcases hx with rfl | rfl <;> omega
      rw [pack, Nat.testBit_add_one, hhead]
      exact ih hxs k (Nat.lt_of_succ_lt_succ hk)

theorem encodeReq_of_wellFormed {i : Instr} (h : i.WellFormed) :
    encodeReq i =
      some (opBit i.op ++ BitVec.ofNat 3 i.operand.length ++ BitVec.ofNat 7 (pack i.operand)) :=
  if_pos h

theorem encodeReq_eq_none_iff (i : Instr) : encodeReq i = none ↔ ¬ i.WellFormed := by
  unfold encodeReq
  split <;> simp_all

/-- The operation and the length of an encoded request stand in its word. -/
theorem encodeReq_fields (i : Instr) : Laws.ReqWord.Statement i := by
  cases i with
  | encode v => exact Laws.ReqWord.encode v
  | decode v => exact Laws.ReqWord.decode v

/-- The payload of an assembled word. -/
theorem reqPayload_append (b : BitVec 1) (l : BitVec 3) (p : BitVec 7) :
    reqPayload (b ++ l ++ p) = p :=
  BitVec.extractLsb'_append_eq_right

/-- Settles O17: `op` and `len` come back from their fields, and the payload is `pack` of the operand, whose
bits are the symbols. -/
theorem requestRoundTrip : Obligations.RequestRoundTrip := by
  intro i hw
  have hq := encodeReq_of_wellFormed hw
  refine ⟨_, hq, ?_⟩
  obtain ⟨hop, hlen⟩ := encodeReq_fields i _ hq
  obtain ⟨hle, hb⟩ := hw
  have hoperand : reqOperand (opBit i.op ++ BitVec.ofNat 3 i.operand.length ++
      BitVec.ofNat 7 (pack i.operand)) = i.operand := by
    refine List.ext_getElem (by rw [length_reqOperand, hlen]) fun k _ hk => ?_
    have hk7 : k < 7 := hk.trans_le hle
    simp only [reqOperand, reqPayload_append, List.getElem_map, List.getElem_range,
      BitVec.getLsbD_ofNat, hk7, decide_true, Bool.true_and]
    exact testBit_pack hb k hk
  rw [decodeReq, hop, hoperand, Instr.ofOp_op_operand]

end Sys2Proof

namespace Sys2Proof.Machine

/-- Settles O18: every word carries a well-formed request, the round trip gives each of those its word, and
an operand of bits never gets `InvalidBit`. -/
theorem requestWordsCarryExactlyTheBitOperands :
    Obligations.RequestWordsCarryExactlyTheBitOperands := by
  refine ⟨fun i => ⟨?_, fun hw => ?_⟩, encodeReq_eq_none_iff, fun q s t h hr => ?_⟩
  · rintro ⟨q, rfl⟩
    exact decodeReq_wellFormed q
  · obtain ⟨q, -, hq⟩ := requestRoundTrip i hw
    exact ⟨q, hq⟩
  · rw [exec_next h] at hr
    have hbit : serve decided (decodeReq q) = .err .invalidBit := by simpa using hr
    exact serve_ne_invalidBit (decodeReq_wellFormed q).2 hbit

/-- Two words with the same `op` and `len` that agree below `len` are the same request. -/
theorem decodeReq_congr {q q' : ReqWord} (hfields : q.extractLsb' 7 4 = q'.extractLsb' 7 4)
    (hbits : ∀ k, k < reqLen q → q.getLsbD k = q'.getLsbD k) : decodeReq q = decodeReq q' := by
  have hbit : ∀ k < 4, q.getLsbD (7 + k) = q'.getLsbD (7 + k) := fun k hk => by
    simpa [hk] using congrArg (fun w => w.getLsbD k) hfields
  have hop : reqOp q = reqOp q' := by
    have h10 : q[10] = q'[10] := hbit 3 (by decide)
    rw [reqOp, reqOp, h10]
  have hlen : reqLen q = reqLen q' := by
    refine congrArg BitVec.toNat (BitVec.eq_of_getLsbD_eq fun k hk => ?_)
    simp [hk, hbit k (by omega)]
  have hoperand : reqOperand q = reqOperand q' := by
    refine List.ext_getElem (by simp [hlen]) fun k hk _ => ?_
    rw [getElem_reqOperand, getElem_reqOperand, hbits k (length_reqOperand q ▸ hk)]
  rw [decodeReq, decodeReq, hop, hoperand]

/-- Settles O19: symbol k is bit k of the word, so a word's request depends on `op`, `len` and the bits
below `len` alone. -/
theorem strayPayloadBitsAreIgnored : Obligations.StrayPayloadBitsAreIgnored := by
  refine ⟨fun q => ⟨?_, fun k hk => ?_⟩, fun q q' hfields hbits => ?_⟩
  · rw [decodeReq_operand, length_reqOperand, reqLen]
  · simp only [decodeReq_operand, getElem_reqOperand, symOfBit]
  · have h := decodeReq_congr hfields hbits
    exact ⟨h, fun s => by rw [h]⟩

/-! ## No word is reserved -/

/-- The request of a word with `op = 0` is an ENCODE. -/
theorem decodeReq_of_op_false {q : ReqWord} (h : q[10] = false) :
    decodeReq q = .encode (reqOperand q) := by
  rw [decodeReq, reqOp_eq_encode h, Instr.ofOp]

/-- The request of a word with `op = 1` is a DECODE. -/
theorem decodeReq_of_op_true {q : ReqWord} (h : q[10] = true) :
    decodeReq q = .decode (reqOperand q) := by
  rw [decodeReq, reqOp_eq_decode h, Instr.ofOp]

section
variable (c : ValidCodec) {q : ReqWord}

theorem serve_word_encode (hop : q[10] = false) (hlen : q.extractLsb' 7 3 = 4#3) :
    serve c (decodeReq q) = .encOk (codeword c (q.extractLsb' 0 4)) := by
  have h4 : reqLen q = 4 := congrArg BitVec.toNat hlen
  rw [decodeReq_of_op_false hop, reqOperand_eq_seqOfWord, h4, serve_encode_seqOfWord]

theorem serve_word_decode (hop : q[10] = true) (hlen : q.extractLsb' 7 3 = 7#3) :
    serve c (decodeReq q) = decodeCore c.codec.h (buildMap c) (q.extractLsb' 0 7) := by
  have h7 : reqLen q = 7 := congrArg BitVec.toNat hlen
  rw [decodeReq_of_op_true hop, reqOperand_eq_seqOfWord, h7, serve_decode_seqOfWord]

theorem serve_word_encode_mismatch (hop : q[10] = false) (hlen : q.extractLsb' 7 3 ≠ 4#3) :
    serve c (decodeReq q) = .err .invalidLength := by
  refine serve_of_length_ne fun h => hlen (BitVec.eq_of_toNat_eq ?_)
  rwa [decodeReq_op, reqOp_eq_encode hop, decodeReq_operand, length_reqOperand] at h

theorem serve_word_decode_mismatch (hop : q[10] = true) (hlen : q.extractLsb' 7 3 ≠ 7#3) :
    serve c (decodeReq q) = .err .invalidLength := by
  refine serve_of_length_ne fun h => hlen (BitVec.eq_of_toNat_eq ?_)
  rwa [decodeReq_op, reqOp_eq_decode hop, decodeReq_operand, length_reqOperand] at h

end

/-- The step that serves a request word. -/
theorem step_word {s : State} {q : ReqWord} {rest : List Submission}
    (h : s.pending = .word q :: rest) :
    step s = .next { pending := rest
                     responses := s.responses ++ [serve decided (decodeReq q)] } := by
  rw [step_cons h, exec_eq_deliver, deliver_eq, requestOf]

/-- Settles O21: the step delivers the response of the word's request, and `op` with `len` says which of the
four kinds that is. -/
theorem noRequestWordIsReserved : Obligations.NoRequestWordIsReserved := by
  intro q s rest hp
  exact ⟨_, step_word hp, serve_word_encode_mismatch decided, serve_word_decode_mismatch decided,
    fun hop hlen => ⟨_, serve_word_encode decided hop hlen⟩,
    fun hop hlen => ⟨_, _, serve_word_decode decided hop hlen⟩⟩

/-- The table decoder reads every request word. -/
theorem decodeTableWord_toNat (q : ReqWord) : decodeTableWord 16 q.toNat = some (decodeReq q) := by
  have hlt : q.toNat < 2 ^ 11 := q.isLt
  have hmod : q.toNat % 2 ^ 16 = q.toNat := Nat.mod_eq_of_lt (hlt.trans (by decide))
  have hq : reqOfNat 16 q.toNat = .ok q := by
    rw [reqOfNat, hmod, if_pos hlt, BitVec.ofNat_toNat, BitVec.setWidth_eq]
  simp [decodeTableWord, decodeWord, hq]

/-- Settles O20: the mask keeps bit 10 alone, which is `op`. -/
theorem opAloneSelectsTheOperation : Obligations.OpAloneSelectsTheOperation := by
  intro q
  refine ⟨fun h => ⟨_, decodeReq_of_op_false ?_⟩, fun h => ⟨_, decodeReq_of_op_true ?_⟩,
    decodeTableWord_toNat q⟩
  · simpa using congrArg (fun w => w[10]) h
  · simpa using congrArg (fun w => w[10]) h

/-- Settles O22, five closed words: the decoder is evaluated on each. -/
theorem workedRequestWordsDecode : Obligations.WorkedRequestWordsDecode := by
  refine ⟨?_, ?_, ?_, ?_, ?_⟩ <;> decide

end Sys2Proof.Machine
end

section
/-! Response words (spec/30_encoding.md R47 to R50). -/

namespace Sys2Proof.Machine

/-! ## The status under a valid pair (R76, R109) -/

/-- R76 (a): the seven columns of a valid H are all the non-zero patterns. -/
theorem exists_column_eq (c : ValidCodec) {s : Syndrome} (hs : s ≠ 0#3) :
    ∃ p : Position, column c.codec.h p = s := by
  have hinj : Function.Injective fun p : Position =>
      (⟨column c.codec.h p, c.column_ne_zero p⟩ : {s : Syndrome // s ≠ 0#3}) := fun p q h =>
    c.column_injective (congrArg Subtype.val h)
  have hcard : Fintype.card Position = Fintype.card {s : Syndrome // s ≠ 0#3} := by decide
  obtain ⟨p, hp⟩ := ((Fintype.bijective_iff_injective_and_card _).mpr ⟨hinj, hcard⟩).surjective ⟨s, hs⟩
  exact ⟨p, congrArg Subtype.val hp⟩

/-- R109: MAP has a key for every non-zero syndrome, so no valid pair gives `UncorrectableError`. -/
theorem statusOf_ne_uncorrectableError (c : ValidCodec) (s : Syndrome) :
    statusOf (buildMap c) s ≠ .uncorrectableError := by
  obtain ⟨-, h⟩ | ⟨-, p, -, h⟩ | ⟨hs, hnone, -⟩ := statusOf_cases (buildMap c) s
  · simp [h]
  · simp [h]
  · obtain ⟨p, hp⟩ := exists_column_eq c hs
    rw [(lookup_buildMap_eq_some c s p).mpr hp] at hnone
    cases hnone

theorem serve_ne_uncorrectableError (c : ValidCodec) (i : Instr) (d : Data) :
    serve c i ≠ .decOk d .uncorrectableError := by
  intro h
  by_cases hok : i.OperandOk
  · obtain ⟨-, w, hw⟩ | ⟨-, d', s, hd⟩ := serve_of_operandOk (c := c) hok
    · rw [hw] at h; cases h
    · rw [hd] at h
      exact statusOf_ne_uncorrectableError c s (Response.decOk.inj h).2
  · obtain ⟨e, he⟩ := serve_of_not_operandOk (c := c) hok
    rw [he] at h; cases h

/-! ## The codes of the fields (R47) -/

theorem errCode_ne_three (e : CodecError) : errCode e ≠ 3#2 := by cases e <;> decide

theorem statusCode_ne_three (st : Status) : statusCode st ≠ 3#2 := by cases st <;> simp [statusCode]

theorem statusCode_eq_two_iff (st : Status) : statusCode st = 2#2 ↔ st = .uncorrectableError := by
  cases st <;> simp [statusCode]

theorem ofNat_position_ne_seven (p : Position) : BitVec.ofNat 3 p.val ≠ 7#3 := by
  revert p; decide

/-- `pos` is used exactly with `ErrorCorrected`. -/
theorem statusCode_eq_one_iff (st : Status) : statusCode st = 1#2 ↔ posCode st ≠ 7#3 := by
  cases st with
  | noError => simp [statusCode, posCode]
  | errorCorrected p => simpa [statusCode, posCode] using ofNat_position_ne_seven p
  | uncorrectableError => simp [statusCode, posCode]

theorem toNat_posCode_errorCorrected (p : Position) :
    (posCode (.errorCorrected p)).toNat = p.val := by
  revert p; decide

/-- The two fields of a status give it back. -/
@[simp] theorem statusOfFields_codes (st : Status) :
    statusOfFields (statusCode st) (posCode st) = st := by
  cases st with
  | noError => rfl
  | errorCorrected p => revert p; decide
  | uncorrectableError => rfl

@[simp] theorem extractLsb'_data_out (d : Data) : (d.setWidth 7).extractLsb' 0 4 = d := by
  revert d; decide

@[simp] theorem extractLsb'_fill_out (d : Data) : (d.setWidth 7).extractLsb' 4 3 = 0#3 := by
  revert d; decide

/-! ## The excluded words (R50) -/

/-- The words that R50 excludes whatever the request was. -/
theorem rspExcluded_eq_none_iff (w : RspWord) :
    rspExcluded w = none ↔
      ¬ (rspErr w = 3#2 ∨ rspStatus w = 3#2 ∨
        (rspErr w ≠ 0#2 ∧ (rspStatus w ≠ 0#2 ∨ rspPos w ≠ 7#3 ∨ rspOut w ≠ 0#7)) ∨
        (rspStatus w = 1#2 ∧ rspPos w = 7#3) ∨ (rspStatus w ≠ 1#2 ∧ rspPos w ≠ 7#3)) := by
  unfold rspExcluded
  split_ifs <;> simp_all

/-- An excluded word is refused by both response decoders. -/
theorem decodeRsp_error_of_excluded (op : Op) {w : RspWord} (h : rspExcluded w ≠ none) :
    ∃ e, decodeRsp op w = .error e ∧ ∃ e', decodeRspOfReq op w = .error e' := by
  obtain ⟨e, he⟩ := Option.ne_none_iff_exists'.mp h
  have hdec : decodeRsp op w = .error e := by simp only [decodeRsp, he]
  refine ⟨e, hdec, ?_⟩
  unfold decodeRspOfReq
  split_ifs
  · exact ⟨_, rfl⟩
  · exact ⟨_, rfl⟩
  · exact ⟨e, hdec⟩

/-- No response has an excluded word. -/
theorem rspExcluded_encodeRsp (r : Response) : rspExcluded (encodeRsp r) = none := by
  rw [rspExcluded_eq_none_iff]
  cases r with
  | encOk c => simp [encodeRsp]
  | decOk d st => simp [encodeRsp, statusCode_ne_three, statusCode_eq_one_iff]
  | err e => simp [encodeRsp, errCode_ne_three]

/-- R48: the host that knows the operation reads the response back. -/
theorem decodeRsp_encodeRsp {op : Op} {r : Response} (h : r.Answers op) :
    decodeRsp op (encodeRsp r) = .ok r := by
  unfold decodeRsp
  rw [rspExcluded_encodeRsp]
  cases r with
  | encOk c => obtain rfl : op = .encode := h; simp [encodeRsp]
  | decOk d st => obtain rfl : op = .decode := h; simp [encodeRsp]
  | err e => cases e <;> simp [encodeRsp, errCode]

/-- Settles O24: the fields are read off `rspOfFields`, and the recovery of the response makes the encoding
injective. -/
theorem responseWordFieldsAndRecovery : Obligations.ResponseWordFieldsAndRecovery := by
  refine ⟨fun r => ?_, fun op r r' hr hr' h => ?_, fun _ _ => decodeRsp_encodeRsp⟩
  · cases r with
    | encOk c => simp [encodeRsp]
    | decOk d st =>
      cases st with
      | noError => simp [encodeRsp, statusCode, posCode]
      | errorCorrected p => simp [encodeRsp, statusCode, toNat_posCode_errorCorrected]
      | uncorrectableError => simp [encodeRsp, statusCode, posCode]
    | err e => cases e <;> simp [encodeRsp, errCode]
  · have hok : Except.ok r = (Except.ok r' : Except RspError Response) := by
      rw [← decodeRsp_encodeRsp hr, h, decodeRsp_encodeRsp hr']
    exact Except.ok.inj hok

/-- R47: `err = 2` is the code of `InvalidBit` alone. -/
theorem rspErr_encodeRsp_eq_two_iff (r : Response) :
    rspErr (encodeRsp r) = 2#2 ↔ r = .err .invalidBit := by
  cases r with
  | encOk c => simp [encodeRsp]
  | decOk d st => simp [encodeRsp]
  | err e => cases e <;> simp [encodeRsp, errCode]

/-- R47: `status = 2` is the code of `UncorrectableError` alone. -/
theorem rspStatus_encodeRsp_eq_two_iff (r : Response) :
    rspStatus (encodeRsp r) = 2#2 ↔ ∃ d, r = .decOk d .uncorrectableError := by
  cases r with
  | encOk c => simp [encodeRsp]
  | decOk d st => simp [encodeRsp, statusCode_eq_two_iff]
  | err e => simp [encodeRsp]

/-- What `exec` appends, as a word. -/
theorem rspWords_exec_next {i : Instr} {s t : State} (h : exec i s = .next t) :
    t.rspWords = s.rspWords ++ [encodeRsp (serve decided i)] := by
  rw [exec_next h, rspWords_deliver]

/-- Settles O25: no response has an excluded word, the decided pair never gives `UncorrectableError`, an
operand of bits never gets `InvalidBit`, and each decoder tests for the words it refuses first. -/
theorem excludedResponseWords : Obligations.ExcludedResponseWords := by
  refine ⟨fun i s t h => ⟨_, rspWords_exec_next h, ?_⟩,
    fun q s t h => ⟨_, rspWords_exec_next h, ?_⟩, fun op w => ⟨fun h => ?_, fun h => ?_, fun h h' => ?_⟩⟩
  · have hex := (rspExcluded_eq_none_iff _).mp (rspExcluded_encodeRsp (serve decided i))
    have hst : rspStatus (encodeRsp (serve decided i)) ≠ 2#2 := fun h2 => by
      obtain ⟨d, hd⟩ := (rspStatus_encodeRsp_eq_two_iff _).mp h2
      exact serve_ne_uncorrectableError decided i d hd
    tauto
  · rw [Ne, rspErr_encodeRsp_eq_two_iff]
    exact serve_ne_invalidBit (decodeReq_wellFormed q).2
  · exact decodeRsp_error_of_excluded op fun hnone => (rspExcluded_eq_none_iff w).mp hnone h
  · rw [decodeRspOfReq, if_pos h]
  · rw [decodeRspOfReq, if_neg h, if_pos h']

end Sys2Proof.Machine
end

section
/-! The front end FE against the transaction level (spec/30_encoding.md R52): its networks against the
decided matrices, its table against MAP, and DEC net by net (R82, R91, R32, R112). -/

namespace Sys2Proof.Machine

/-! ## The networks and the table -/

/-- The XOR equations of ENC are the columns of the decided G (R82). -/
theorem encUnit_encC (d : Data) : (encUnit d).encC = codeword decided d := by
  revert d; decide

/-- The XOR equations of DEC are the rows of the decided H (R91). -/
theorem bitsOf_synNet (v : Word7) : bitsOf 3 (synNet v) = syndrome decidedH v := by
  revert v; decide

/-- The read-only table answers as the decided MAP does (R32, R94). -/
theorem sleUnit_eq (s : Syndrome) :
    sleUnit s = ⟨s, (lookup (buildMap decided) s).isSome,
      ((lookup (buildMap decided) s).map fun p => BitVec.ofNat 3 p.val).getD 7#3⟩ := by
  revert s; decide

/-- The comparators of DEC tell the seven positions apart. -/
theorem ofNat_position_beq (p q : Position) :
    (BitVec.ofNat 3 p.val == BitVec.ofNat 3 q.val) = decide (q = p) := by
  revert p q; decide

/-! ## DEC, net by net -/

theorem decUnit_sle (v : Word7) : (decUnit v).sle = sleUnit (syndrome decidedH v) :=
  congrArg sleUnit (bitsOf_synNet v)

theorem decUnit_zero (v : Word7) : (decUnit v).zero = decide (syndrome decidedH v = 0#3) :=
  congrArg (fun s : Syndrome => decide (s = 0#3)) (bitsOf_synNet v)

/-- The status (R104) on the two lines of `dec_status`. -/
theorem decUnit_decStatus (v : Word7) :
    (decUnit v).decStatus = statusCode (statusOf (buildMap decided) (syndrome decidedH v)) := by
  have hnet : (decUnit v).decStatus =
      if (decUnit v).zero then 0#2 else if (decUnit v).sle.sleHit then 1#2 else 2#2 := rfl
  rw [hnet, decUnit_zero, decUnit_sle, sleUnit_eq]
  obtain ⟨hs, h⟩ | ⟨hs, p, hp, h⟩ | ⟨hs, hnone, h⟩ :=
    statusOf_cases (buildMap decided) (syndrome decidedH v)
  · rw [h]; simp [hs, statusCode]
  · simp [h, hs, hp, statusCode]
  · simp [h, hs, hnone, statusCode]

/-- The position, or 7 with any other status. -/
theorem decUnit_decPos (v : Word7) :
    (decUnit v).decPos = posCode (statusOf (buildMap decided) (syndrome decidedH v)) := by
  have hnet : (decUnit v).decPos =
      if (decUnit v).decStatus = 1#2 then (decUnit v).sle.slePos else 7#3 := rfl
  rw [hnet, decUnit_decStatus, decUnit_sle, sleUnit_eq]
  obtain ⟨-, h⟩ | ⟨-, p, hp, h⟩ | ⟨-, -, h⟩ :=
    statusOf_cases (buildMap decided) (syndrome decidedH v)
  · simp [h, statusCode, posCode]
  · simp [h, hp, statusCode, posCode]
  · simp [h, statusCode, posCode]

/-- The seven gates behind the working copy invert the bit that CORRECT flips (R103). -/
theorem decUnit_decW (v : Word7) :
    (decUnit v).decW = correct (statusOf (buildMap decided) (syndrome decidedH v)) v := by
  have hnet : (decUnit v).decW = bitsOf 7 fun j => v[j] ^^ (!(decUnit v).zero &&
      (decUnit v).sle.sleHit && (decUnit v).sle.slePos == BitVec.ofNat 3 j.val) := rfl
  rw [hnet, decUnit_zero, decUnit_sle, sleUnit_eq]
  refine word_ext fun j => ?_
  obtain ⟨hs, h⟩ | ⟨hs, p, hp, h⟩ | ⟨hs, hnone, h⟩ :=
    statusOf_cases (buildMap decided) (syndrome decidedH v)
  · rw [h]; simp [hs, correct]
  · rw [h]
    by_cases hj : j = p
    · subst hj; simp [hs, hp, correct]
    · simp [hs, hp, correct, ofNat_position_beq, hj, Fin.val_ne_of_ne hj]
  · simp [h, hnone, correct]

/-- The output is the first four lines of the working copy (R105). -/
theorem decUnit_decD (v : Word7) : (decUnit v).decD = dataOf (decUnit v).decW :=
  word_ext fun i => by
    have hi : i.val < 7 := i.isLt.trans (by decide)
    have hnet : (decUnit v).decD = bitsOf 4 fun i => (decUnit v).decW[i.val] := rfl
    simp [hnet, dataOf, BitVec.getLsbD_eq_getElem hi]

/-! ## FE -/

/-- The word assembled from DEC is the response word of DECODE (R112, R48). -/
theorem rspOfFields_decUnit (v : Word7) :
    rspOfFields 0#2 (decUnit v).decStatus (decUnit v).decPos ((decUnit v).decD.setWidth 7) =
      encodeRsp (decodeCore decided.codec.h (buildMap decided) v) := by
  rw [decUnit_decStatus, decUnit_decPos, decUnit_decD, decUnit_decW]
  rfl

theorem encodeRsp_invalidLength : encodeRsp (.err .invalidLength) = 0x1380#14 := by decide

section
variable {q : ReqWord}

theorem feRsp_encode (hop : q[10] = false) (hlen : q.extractLsb' 7 3 = 4#3) :
    feRsp q = encodeRsp (.encOk (codeword decided (q.extractLsb' 0 4))) := by
  simp [feRsp, fePath, hop, hlen, encUnit_encC, encodeRsp]

theorem feRsp_decode (hop : q[10] = true) (hlen : q.extractLsb' 7 3 = 7#3) :
    feRsp q = encodeRsp (decodeCore decided.codec.h (buildMap decided) (q.extractLsb' 0 7)) := by
  rw [← rspOfFields_decUnit]
  simp [feRsp, fePath, hop, hlen]

theorem feRsp_encode_mismatch (hop : q[10] = false) (hlen : q.extractLsb' 7 3 ≠ 4#3) :
    feRsp q = 0x1380#14 := by
  simp [feRsp, fePath, hop, hlen]

theorem feRsp_decode_mismatch (hop : q[10] = true) (hlen : q.extractLsb' 7 3 ≠ 7#3) :
    feRsp q = 0x1380#14 := by
  simp [feRsp, fePath, hop, hlen]

end

/-- R52: `rsp = encodeRsp(exec(decodeReq(q)))`, by `op` and by whether `len` is the one it expects. -/
theorem feRsp_eq_encodeRsp (q : ReqWord) : feRsp q = encodeRsp (serve decided (decodeReq q)) := by
  cases hop : q[10] with
  | false =>
    by_cases hlen : q.extractLsb' 7 3 = 4#3
    · rw [feRsp_encode hop hlen, serve_word_encode decided hop hlen]
    · rw [feRsp_encode_mismatch hop hlen, serve_word_encode_mismatch decided hop hlen,
        encodeRsp_invalidLength]
  | true =>
    by_cases hlen : q.extractLsb' 7 3 = 7#3
    · rw [feRsp_decode hop hlen, serve_word_decode decided hop hlen]
    · rw [feRsp_decode_mismatch hop hlen, serve_word_decode_mismatch decided hop hlen,
        encodeRsp_invalidLength]

/-- Settles O26: the step delivers the response of the word's request, whose word is the one FE drives. -/
theorem frontEndAddsNothing : Obligations.FrontEndAddsNothing := by
  intro q s rest hp
  refine ⟨⟨_, step_word hp, rfl, ?_⟩, feRsp_encode_mismatch, feRsp_decode_mismatch⟩
  rw [feRsp_eq_encodeRsp]
  simp [State.rspWords]

end Sys2Proof.Machine
end

section
/-! GF(2) arithmetic (spec/40_gf2_arithmetic.md R60 to R65): the laws of the bit operations, the dot product
as a parity, and the linearity of both products. -/

namespace Sys2Proof.Machine

theorem mod2_eq_true_iff {n : Nat} : mod2 n = true ↔ n % 2 = 1 := by simp [mod2]

/-- The common 1s of two words are the 1s of `a &&& b`, and each adds 1 to the sum of products of R63. -/
theorem dot2_eq_mod2_weight {n : Nat} (a b : BitVec n) : dot2 a b = mod2 (weight (a &&& b)) := by
  simp [dot2, weight, toNat_mul_toNat]

/-- Settles O30: the remainder of a sum of bits is their XOR, and the sum of the products counts the common
1s. -/
theorem dotProductIsAParity : Obligations.DotProductIsAParity := by
  intro n a b
  constructor
  · simp only [gfAdd_eq_xor, gfMul_eq_and, dot2_eq_foldr]
  · rw [dot2_eq_mod2_weight, mod2_eq_true_iff]

/-- Settles O31: both products are additive, so they keep zero, and the product with the unit word at `p` is
the column `p`. -/
theorem productsAreLinear : Obligations.ProductsAreLinear := by
  intro r c m
  have flipped (v : BitVec c) (p : Fin c) :
      matVec m (v ^^^ unitAt p) = matVec m v ^^^ column m p := by
    rw [matVec_xorAdditive m, matVec_unitAt]
  exact ⟨vecMat_xorAdditive m, matVec_xorAdditive m, (vecMat_xorAdditive m).map_zero,
    (matVec_xorAdditive m).map_zero, flipped⟩

/-- Settles O29: the three operations are XOR, AND and NOT of Booleans, whose laws these are. -/
theorem bitOperationTables : Obligations.BitOperationTables := by
  refine ⟨rfl, rfl, rfl, rfl, fun a b c => ?_⟩
  simp only [gfAdd_eq_xor, gfMul_eq_and, flipBit_eq_not]
  exact ⟨Bool.xor_comm a b, Bool.xor_assoc a b c, Bool.xor_false a, Bool.xor_self a,
    Bool.and_comm a b, Bool.and_assoc a b c, Bool.and_true a, Bool.and_xor_distrib_left a b c,
    (Bool.xor_true a).symm, Bool.not_not a⟩

end Sys2Proof.Machine
end

section
/-! The weight of a word (spec/42_encode.md R86): each 1 adds 1 to it. -/

namespace Sys2Proof.Machine

theorem exists_one_of_ne_zero {n : Nat} {w : BitVec n} (h : w ≠ 0#n) : ∃ p : Fin n, w[p] = true := by
  by_contra! hw
  exact h (word_ext fun i => by simpa using hw i)

/-- The weight as the 1s elsewhere and the bit at p. -/
theorem weight_eq_sum_erase_add {n : Nat} (w : BitVec n) (p : Fin n) :
    weight w = (∑ i ∈ Finset.univ.erase p, w[i].toNat) + w[p].toNat := by
  rw [weight, ← Fin.sum_univ_def, Finset.sum_erase_add _ _ (Finset.mem_univ p)]

theorem getElem_xor_unitAt_self {n : Nat} {w : BitVec n} {p : Fin n} (h : w[p] = true) :
    (w ^^^ unitAt p)[p] = false := by
  simpa using h

/-- Clearing a 1 takes 1 off the weight. -/
theorem weight_xor_unitAt {n : Nat} {w : BitVec n} {p : Fin n} (h : w[p] = true) :
    weight (w ^^^ unitAt p) + 1 = weight w := by
  have hrest : ∀ i ∈ Finset.univ.erase p, (w ^^^ unitAt p)[i].toNat = w[i].toNat := fun i hi => by
    simp [Fin.val_ne_of_ne (Finset.ne_of_mem_erase hi)]
  rw [weight_eq_sum_erase_add _ p, weight_eq_sum_erase_add w p, Finset.sum_congr rfl hrest,
    getElem_xor_unitAt_self h, h]
  rfl

end Sys2Proof.Machine
end

section
/-! What validity gives the other rules (spec/41_construction.md R76) and the runs: MAP as a bijection (R95,
R96), the perfect single-error-correcting code, and the responses that can be delivered. -/

namespace Sys2Proof.Machine

/-! ## Safe runs -/

/-- Every response is producible: ENCODE answers with codewords (R85), a valid MAP has every key (R109), and
no response has an excluded word (R50). -/
theorem serve_producible (c : ValidCodec) (i : Instr) : Producible c (serve c i) := by
  refine ⟨fun w hw => ?_, serve_ne_uncorrectableError c i, rspExcluded_encodeRsp _⟩
  have hop : i.op = .encode := by
    have hkind := serve_answers c i
    rwa [hw] at hkind
  cases i with
  | encode v => exact codewordsHaveZeroSyndrome c v w hw
  | decode v => cases hop

/-- Settles O15: the one response that a step appends is `serve decided` of the request it took. -/
theorem stepKeepsTheRunSafe : Obligations.StepKeepsTheRunSafe := by
  intro s t hs h r hr
  obtain ⟨sub, rest, -, -, hresp⟩ := step_next h
  rw [hresp, List.mem_append, List.mem_singleton] at hr
  rcases hr with hold | rfl
  · exact hs r hold
  · exact serve_producible decided _

/-- Settles O49: a valid MAP has a key for every non-zero syndrome, so the last branch of the status is never
taken. -/
theorem uncorrectableNeverOccurs : Obligations.UncorrectableNeverOccurs :=
  serve_ne_uncorrectableError

/-! ## MAP -/

/-- R18, R71: MAP finds nothing exactly for the patterns that are no column. -/
theorem lookup_buildMap_eq_none (c : ValidCodec) (s : Syndrome) :
    lookup (buildMap c) s = none ↔ ∀ p : Position, column c.codec.h p ≠ s := by
  simp only [Option.eq_none_iff_forall_ne_some, Ne, lookup_buildMap_eq_some]

@[simp] theorem lookup_buildMap_column (c : ValidCodec) (p : Position) :
    lookup (buildMap c) (column c.codec.h p) = some p :=
  (lookup_buildMap_eq_some c _ p).mpr rfl

/-- R76 (a): every non-zero pattern is a key. -/
theorem exists_lookup_buildMap_eq_some (c : ValidCodec) {s : Syndrome} (hs : s ≠ 0#3) :
    ∃ p : Position, lookup (buildMap c) s = some p := by
  obtain ⟨p, rfl⟩ := exists_column_eq c hs
  exact ⟨p, lookup_buildMap_column c p⟩

/-- Settles O34: MAP finds p exactly for column p, and the columns are the non-zero patterns, each once. -/
theorem mapIsABijection : Obligations.MapIsABijection := by
  intro c
  refine ⟨(lookup_buildMap_eq_none c _).mpr c.column_ne_zero, fun s hs => ?_, fun p => ?_, fun p => ?_⟩
  · obtain ⟨p, hp⟩ := exists_lookup_buildMap_eq_some c hs
    exact ⟨p, hp, fun q hq => Option.some.inj (hq.symm.trans hp)⟩
  · exact ⟨column c.codec.h p, lookup_buildMap_column c p, fun s hs =>
      ((lookup_buildMap_eq_some c s p).mp hs).symm⟩
  · exact ⟨matVec_unitAt _ p, lookup_buildMap_column c p⟩

/-! ## The codewords are the words of zero syndrome -/

theorem syndrome_xor (h : BitMatrix 3 7) (v w : Word7) :
    syndrome h (v ^^^ w) = syndrome h v ^^^ syndrome h w := matVec_xorAdditive h v w

theorem syndrome_zero (h : BitMatrix 3 7) : syndrome h 0#7 = 0#3 := (matVec_xorAdditive h).map_zero

theorem syndrome_xor_unitAt (h : BitMatrix 3 7) (v : Word7) (p : Position) :
    syndrome h (v ^^^ unitAt p) = syndrome h v ^^^ column h p := by
  rw [syndrome_xor]
  exact congrArg _ (matVec_unitAt h p)

theorem ne_zero_of_syndrome_ne_zero {h : BitMatrix 3 7} {v : Word7} (hs : syndrome h v ≠ 0#3) :
    v ≠ 0#7 := by
  rintro rfl
  exact hs (syndrome_zero h)

/-- R83: the codeword begins with the data. -/
theorem extractLsb'_codeword (c : ValidCodec) (d : Data) : (codeword c d).extractLsb' 0 4 = d := by
  have hdata : XorAdditive fun w : Word7 => w.extractLsb' 0 4 := fun v w => BitVec.extractLsb'_xor
  refine (hdata.comp (vecMat_xorAdditive c.codec.g)).ext (g := id) (fun _ _ => rfl)
    (fun i => word_ext fun j => ?_) d
  have hj : j.val < 7 := j.isLt.trans (by decide)
  have hrow : c.codec.g[i.val][j.val] = decide (i = j) := c.systematic i j
  simp [BitVec.getLsbD_eq_getElem hj, hrow, Fin.ext_iff, eq_comm]

/-- A word without data bits is its parity bits. -/
theorem parityWord_extractLsb' {w : Word7} (h : w.extractLsb' 0 4 = 0#4) :
    parityWord (w.extractLsb' 4 3) = w := by
  revert w; decide

/-- Every column of H is the syndrome of a word of parity bits alone: `H * G^T = 0` writes a data column as
one. -/
theorem exists_parityWord_syndrome_eq_column (c : ValidCodec) (p : Position) :
    ∃ q, syndrome c.codec.h (parityWord q) = column c.codec.h p := by
  induction p using Fin.addCases (m := 4) (n := 3) with
  | left i => exact ⟨parityRow c i, (column_data_eq c i).symm⟩
  | right j => exact ⟨unitAt j, by rw [← unitAt_parity_position, syndrome, matVec_unitAt]⟩

/-- The parity bits are determined by their syndrome: all 8 syndromes come from the 8 words of parity bits. -/
theorem syndrome_parityWord_injective (c : ValidCodec) :
    Function.Injective fun q => syndrome c.codec.h (parityWord q) := by
  refine Finite.injective_iff_surjective.mpr fun s => ?_
  by_cases hs : s = 0#3
  · subst hs
    exact ⟨0#3, syndrome_zero _⟩
  · obtain ⟨p, rfl⟩ := exists_column_eq c hs
    exact exists_parityWord_syndrome_eq_column c p

/-- Zero data bits and zero syndrome: only the zero word has both. -/
theorem eq_zero_of_data_of_syndrome (c : ValidCodec) {e : Word7} (hd : e.extractLsb' 0 4 = 0#4)
    (hs : syndrome c.codec.h e = 0#3) : e = 0#7 := by
  have hpar := parityWord_extractLsb' hd
  have hzero : e.extractLsb' 4 3 = 0#3 := syndrome_parityWord_injective c <| by
    simp only [hpar, hs]
    exact (syndrome_zero c.codec.h).symm
  rw [← hpar, hzero]
  rfl

/-- A word of zero syndrome is the codeword of its first four bits: the two differ in no data bit, and their
difference has zero syndrome. -/
theorem eq_codeword_of_syndrome_eq_zero {c : ValidCodec} {v : Word7} (h : syndrome c.codec.h v = 0#3) :
    v = codeword c (v.extractLsb' 0 4) := by
  refine BitVec.xor_eq_zero_iff.mp (eq_zero_of_data_of_syndrome c ?_ ?_)
  · rw [BitVec.extractLsb'_xor, extractLsb'_codeword, BitVec.xor_self]
  · rw [syndrome_xor, h, syndrome_codeword, BitVec.xor_self]

/-! ## Distance 3 and the perfect covering -/

/-- A non-zero word of zero syndrome has three 1s: clearing one leaves the syndrome a column, which is not
zero, and clearing a second one the sum of two different columns. -/
theorem three_le_weight_of_syndrome_eq_zero {c : ValidCodec} {w : Word7}
    (hs : syndrome c.codec.h w = 0#3) (hw : w ≠ 0#7) : 3 ≤ weight w := by
  obtain ⟨p, hp⟩ := exists_one_of_ne_zero hw
  have hsyn₁ : syndrome c.codec.h (w ^^^ unitAt p) = column c.codec.h p := by
    rw [syndrome_xor_unitAt, hs, BitVec.zero_xor]
  have hw₁ : w ^^^ unitAt p ≠ 0#7 := ne_zero_of_syndrome_ne_zero (hsyn₁ ▸ c.column_ne_zero p)
  obtain ⟨q, hq⟩ := exists_one_of_ne_zero hw₁
  have hqp : q ≠ p := by
    rintro rfl
    exact Bool.false_ne_true ((getElem_xor_unitAt_self hp).symm.trans hq)
  have hsyn₂ : syndrome c.codec.h (w ^^^ unitAt p ^^^ unitAt q) ≠ 0#3 := by
    rw [syndrome_xor_unitAt, hsyn₁, Ne, BitVec.xor_eq_zero_iff]
    exact fun h => hqp (c.column_injective h.symm)
  obtain ⟨r, hr⟩ := exists_one_of_ne_zero (ne_zero_of_syndrome_ne_zero hsyn₂)
  have h₁ := weight_xor_unitAt hp
  have h₂ := weight_xor_unitAt hq
  have h₃ := weight_xor_unitAt hr
  omega

/-- R76 (d): two different codewords differ in at least three positions, since their difference has zero
syndrome. -/
theorem three_le_weight_codeword_xor {c : ValidCodec} {d d' : Data} (h : codeword c d ≠ codeword c d') :
    3 ≤ weight (codeword c d ^^^ codeword c d') := by
  refine three_le_weight_of_syndrome_eq_zero (c := c) ?_ (mt BitVec.xor_eq_zero_iff.mp h)
  rw [syndrome_xor, syndrome_codeword, syndrome_codeword, BitVec.xor_self]

/-- R92: a codeword with bit p flipped has the syndrome column p. -/
theorem syndrome_codeword_xor_unitAt (c : ValidCodec) (d : Data) (p : Position) :
    syndrome c.codec.h (codeword c d ^^^ unitAt p) = column c.codec.h p := by
  rw [syndrome_xor_unitAt, syndrome_codeword, BitVec.zero_xor]

/-- A word whose syndrome is column p is a codeword with bit p flipped. -/
theorem exists_codeword_xor_unitAt {c : ValidCodec} {v : Word7} {p : Position}
    (h : syndrome c.codec.h v = column c.codec.h p) : ∃ d : Data, v = codeword c d ^^^ unitAt p := by
  have hs : syndrome c.codec.h (v ^^^ unitAt p) = 0#3 := by
    rw [syndrome_xor_unitAt, h, BitVec.xor_self]
  refine ⟨(v ^^^ unitAt p).extractLsb' 0 4, ?_⟩
  rw [← eq_codeword_of_syndrome_eq_zero hs, BitVec.xor_assoc, BitVec.xor_self, BitVec.xor_zero]

/-- The syndrome of a word tells the flipped position, and with it the codeword. -/
theorem codeword_xor_unitAt_unique {c : ValidCodec} {d d' : Data} {p p' : Position}
    (h : codeword c d ^^^ unitAt p = codeword c d' ^^^ unitAt p') :
    codeword c d' = codeword c d ∧ p' = p := by
  have hp : p = p' := c.column_injective <| by
    rw [← syndrome_codeword_xor_unitAt c d p, h, syndrome_codeword_xor_unitAt]
  subst hp
  exact ⟨(BitVec.xor_left_inj _).mp h.symm, rfl⟩

/-- Settles O35: a word of zero syndrome is a codeword, one of non-zero syndrome is a codeword with the bit
flipped whose column the syndrome is, and a difference of codewords has zero syndrome, so three 1s. -/
theorem consequencesOfValidity : Obligations.ConsequencesOfValidity := by
  intro c
  refine ⟨fun s => exists_lookup_buildMap_eq_some c, lookup_buildMap_column c, syndrome_codeword c,
    fun d d' => three_le_weight_codeword_xor, fun v => ?_⟩
  by_cases hs : syndrome c.codec.h v = 0#3
  · exact Or.inl ⟨_, eq_codeword_of_syndrome_eq_zero hs⟩
  · obtain ⟨p, hp⟩ := exists_column_eq c hs
    obtain ⟨d, rfl⟩ := exists_codeword_xor_unitAt hp.symm
    exact Or.inr ⟨d, p, rfl, fun d' p' => codeword_xor_unitAt_unique⟩

end Sys2Proof.Machine
end

section
/-! Single errors under every valid pair (spec/44_decode.md R107 item 2): DECODE flips back the bit whose
column the syndrome is. -/

namespace Sys2Proof.Machine

/-- R102 to R104: a syndrome that is column p of a valid H is reported as position p. -/
theorem statusOf_column (c : ValidCodec) (p : Position) :
    statusOf (buildMap c) (column c.codec.h p) = .errorCorrected p := by
  simp [statusOf, c.column_ne_zero]

/-- CORRECT undoes a flip at the position that it is given (R103). -/
theorem correct_errorCorrected_flipAt (w : Word7) (p : Position) :
    correct (.errorCorrected p) (flipAt w p) = w := by
  rw [correct, flipAt_eq_xor, flipAt_eq_xor, BitVec.xor_assoc, BitVec.xor_self, BitVec.xor_zero]

/-- R105 on a codeword: its first four bits are the data. -/
theorem dataOf_codeword (c : ValidCodec) (d : Data) : dataOf (codeword c d) = d :=
  extractLsb'_codeword c d

/-- Settles O45: the syndrome of the received word is column p, so MAP finds p, CORRECT restores the codeword,
and the codeword begins with the data. -/
theorem singleErrorIsCorrected : Obligations.SingleErrorIsCorrected := by
  intro c d p
  have hsyn : syndrome c.codec.h (flipAt (codeword c d) p) = column c.codec.h p := by
    rw [flipAt_eq_xor, syndrome_codeword_xor_unitAt]
  rw [serve_decode_seqOfWord, decodeCore, hsyn, statusOf_column, correct_errorCorrected_flipAt,
    dataOf_codeword]

end Sys2Proof.Machine
end

section
/-! ENCODE with the decided G (spec/42_encode.md R80, R82). -/

namespace Sys2Proof.Machine

/-! ## The dot product over the integers -/

theorem symOfBit_eq_toInt (b : Bit) : symOfBit b = b.toInt := by cases b <;> rfl

theorem natCast_toNat_eq_toInt (b : Bit) : (b.toNat : Int) = b.toInt := by cases b <;> rfl

theorem toInt_mod2 (n : Nat) : (mod2 n).toInt = (n : Int) % 2 := by
  rcases Nat.mod_two_eq_zero_or_one n with h | h
  · have hint : (n : Int) % 2 = 0 := by omega
    simp [mod2, h, hint]
  · have hint : (n : Int) % 2 = 1 := by omega
    simp [mod2, h, hint]

/-- R63 over the integers: `dot2` is the integer sum of the products modulo 2. -/
theorem toInt_dot2 {n : Nat} (a b : BitVec n) :
    (dot2 a b).toInt = (∑ i : Fin n, a[i].toInt * b[i].toInt) % 2 := by
  simp only [dot2, toInt_mod2, ← Fin.sum_univ_def, Nat.cast_sum, Nat.cast_mul, natCast_toNat_eq_toInt]

/-! ## The response of `exec` -/

/-- R80 on the bits of a data vector: the sum of products of each column of G. -/
theorem toInt_getElem_codeword (c : ValidCodec) (d : Data) (j : Fin 7) :
    (codeword c d)[j].toInt =
      ((seqOfWord d).getD 0 0 * c.codec.g[0][j].toInt + (seqOfWord d).getD 1 0 * c.codec.g[1][j].toInt +
        (seqOfWord d).getD 2 0 * c.codec.g[2][j].toInt +
        (seqOfWord d).getD 3 0 * c.codec.g[3][j].toInt) % 2 := by
  have hsym (i : Fin 4) : (seqOfWord d).getD i 0 = d[i].toInt := by
    rw [getD_seqOfWord, symOfBit_eq_toInt]
  have hdot : (codeword c d)[j] = dot2 d (column c.codec.g j) := getElem_vecMat d c.codec.g j j.isLt
  rw [hdot, toInt_dot2, Fin.sum_univ_four, ← hsym 0, ← hsym 1, ← hsym 2, ← hsym 3]
  simp

/-- Settles O1: `exec` delivers `serve decided`, whose two checks come in the order of R80, and a checked
operand is the sequence of a data vector. -/
theorem encodeComputesTheDotProducts : Obligations.EncodeComputesTheDotProducts := by
  intro v s
  refine ⟨serve decided (.encode v), by rw [exec_eq_deliver, deliver_eq],
    serve_of_length_ne (i := .encode v), fun hl ⟨x, hx, h0, h1⟩ => ?_, fun hl hb => ?_⟩
  · exact serve_of_not_bit (i := .encode v) hl fun hb => (hb x hx).elim h0 h1
  · obtain ⟨d, rfl⟩ : ∃ d : Data, v = seqOfWord d := ⟨_, (seqOfWord_wordOfSeq hl hb).symm⟩
    exact ⟨codeword decided d, serve_encode_seqOfWord decided d, toInt_getElem_codeword decided d⟩

/-- `exec` of ENCODE on four bits. -/
theorem exec_encode_seqOfWord (d : Data) (s : State) :
    exec (.encode (seqOfWord d)) s =
      .next { s with responses := s.responses ++ [.encOk (codeword decided d)] } := by
  rw [exec_eq_deliver, deliver_eq, serve_encode_seqOfWord]

/-- Bit j of the codeword is output j of the XOR network of ENC (R82). -/
theorem getElem_codeword_decided (d : Data) (j : Nat) (h : j < 7) :
    (codeword decided d)[j] = encNet d ⟨j, h⟩ := by
  rw [← encUnit_encC]
  exact getElem_bitsOf (encNet d) j h

/-- Settles O3: the codeword of the decided G is the output of the XOR network of ENC. -/
theorem encodeXorEquations : Obligations.EncodeXorEquations := by
  intro d s
  refine ⟨codeword decided d, exec_encode_seqOfWord d s, ?_⟩
  simp only [getElem_codeword_decided]
  exact ⟨rfl, rfl, rfl, rfl, rfl, rfl, rfl⟩

end Sys2Proof.Machine
end

section
/-! The codewords under every valid pair (spec/42_encode.md R83, R84, spec/44_decode.md R108) and the table of
the decided pair (R86). -/

namespace Sys2Proof.Machine

/-- R83: the data can be read back from the codeword. -/
theorem codeword_injective (c : ValidCodec) : Function.Injective (codeword c) :=
  Function.LeftInverse.injective (extractLsb'_codeword c)

/-- The codewords, in the order of their data. -/
def codewords (c : ValidCodec) : List Word7 :=
  (List.finRange 16).map fun n => codeword c (BitVec.ofFin n)

theorem length_codewords (c : ValidCodec) : (codewords c).length = 16 := by simp [codewords]

/-- R83: no codeword occurs twice. -/
theorem nodup_codewords (c : ValidCodec) : (codewords c).Nodup :=
  (List.nodup_finRange 16).map fun _ _ h => BitVec.ofFin.inj (codeword_injective c h)

/-- R108: the words of zero syndrome are the codewords. -/
theorem syndrome_eq_zero_iff (c : ValidCodec) (v : Word7) :
    syndrome c.codec.h v = 0#3 ↔ ∃ d : Data, codeword c d = v := by
  constructor
  · intro h
    exact ⟨_, (eq_codeword_of_syndrome_eq_zero h).symm⟩
  · rintro ⟨d, rfl⟩
    exact syndrome_codeword c d

theorem mem_codewords_iff {c : ValidCodec} {v : Word7} :
    v ∈ codewords c ↔ syndrome c.codec.h v = 0#3 := by
  rw [syndrome_eq_zero_iff, codewords, List.mem_map]
  constructor
  · rintro ⟨n, -, h⟩
    exact ⟨_, h⟩
  · rintro ⟨d, h⟩
    exact ⟨d.toFin, List.mem_finRange _, h⟩

/-- Settles O38: the identity part of G copies the data, so the data can be read back from the codeword, and
the 16 data vectors give 16 codewords. -/
theorem encodeIsSystematic : Obligations.EncodeIsSystematic := by
  intro c
  refine ⟨fun d => ⟨_, serve_encode_seqOfWord c d, extractLsb'_codeword c d⟩, fun d d' h => ?_, ?_⟩
  · rw [serve_encode_seqOfWord, serve_encode_seqOfWord] at h
    exact codeword_injective c (Response.encOk.inj h)
  · exact (List.toFinset_card_of_nodup (nodup_codewords c)).trans (length_codewords c)

theorem codeword_zero (c : ValidCodec) : codeword c 0#4 = 0#7 := (vecMat_xorAdditive c.codec.g).map_zero

/-- Settles O39: the codeword is the product `d * G`, which is additive in d. -/
theorem encodeIsLinear : Obligations.EncodeIsLinear := by
  intro c
  refine ⟨fun d d' => ⟨_, _, serve_encode_seqOfWord c d, serve_encode_seqOfWord c d', ?_⟩, ?_⟩
  · rw [serve_encode_seqOfWord, codeword, vecMat_xor, codeword, codeword]
  · have hseq : ([0, 0, 0, 0] : SymSeq) = seqOfWord 0#4 := by decide
    rw [hseq, serve_encode_seqOfWord, codeword_zero]

/-! ## The words that DECODE answers with `NoError` -/

/-- R102: the zero test decides `NoError`, whatever the map is. -/
theorem statusOf_eq_noError_iff (m : SynMap) (s : Syndrome) : statusOf m s = .noError ↔ s = 0#3 := by
  obtain ⟨hs, h⟩ | ⟨hs, p, -, h⟩ | ⟨hs, -, h⟩ := statusOf_cases m s
  · exact iff_of_true h hs
  · simp [h, hs]
  · simp [h, hs]

/-- DECODE answers `NoError`, with the data as received, exactly for zero syndrome (R102, R105). -/
theorem serve_decode_eq_noError_iff (c : ValidCodec) (v : Word7) :
    serve c (.decode (seqOfWord v)) = .decOk (v.extractLsb' 0 4) .noError ↔
      syndrome c.codec.h v = 0#3 := by
  rw [serve_decode_seqOfWord, decodeCore, ← statusOf_eq_noError_iff (buildMap c)]
  constructor
  · intro h
    exact (Response.decOk.inj h).2
  · intro h
    rw [h, correct, dataOf]

/-- The received words that DECODE answers with `NoError`, as numbers. -/
def noErrorNumbers (c : ValidCodec) : List (Fin 128) :=
  (List.finRange 128).filter fun n =>
    serve c (.decode (seqOfWord (BitVec.ofFin n : Word7))) =
      .decOk ((BitVec.ofFin n : Word7).extractLsb' 0 4) .noError

theorem mem_noErrorNumbers_iff {c : ValidCodec} {n : Fin 128} :
    n ∈ noErrorNumbers c ↔ syndrome c.codec.h (BitVec.ofFin n) = 0#3 := by
  rw [noErrorNumbers, List.mem_filter, decide_eq_true_iff, serve_decode_eq_noError_iff]
  exact and_iff_right (List.mem_finRange n)

theorem nodup_noErrorNumbers (c : ValidCodec) : (noErrorNumbers c).Nodup :=
  (List.nodup_finRange 128).filter _

/-- R108: these words are the codewords, each once. -/
theorem noErrorNumbers_perm_codewords (c : ValidCodec) :
    ((noErrorNumbers c).map fun n => (BitVec.ofFin n : Word7)).Perm (codewords c) := by
  have hnodup : ((noErrorNumbers c).map fun n => (BitVec.ofFin n : Word7)).Nodup :=
    (nodup_noErrorNumbers c).map fun _ _ h => BitVec.ofFin.inj h
  refine (List.perm_ext_iff_of_nodup hnodup (nodup_codewords c)).mpr fun v => ?_
  rw [mem_codewords_iff, List.mem_map]
  constructor
  · rintro ⟨n, hn, rfl⟩
    exact mem_noErrorNumbers_iff.mp hn
  · intro hv
    exact ⟨v.toFin, mem_noErrorNumbers_iff.mpr hv, rfl⟩

theorem length_noErrorNumbers (c : ValidCodec) : (noErrorNumbers c).length = 16 := by
  simpa [length_codewords] using (noErrorNumbers_perm_codewords c).length_eq

/-- Settles O48: the words of zero syndrome are the codewords, whose data are their first four bits, and
`NoError` is the status of exactly these. -/
theorem zeroSyndromeExactlyForCodewords : Obligations.ZeroSyndromeExactlyForCodewords := by
  refine ⟨fun c v => ⟨?_, fun d h => ?_⟩, length_noErrorNumbers decided⟩
  · simp only [serve_encode_seqOfWord, Response.encOk.injEq]
    exact syndrome_eq_zero_iff c v
  · rw [serve_encode_seqOfWord] at h
    rw [← Response.encOk.inj h, extractLsb'_codeword]

/-! ## The complete function -/

/-- R86, a closed table: the sixteen products are evaluated. -/
theorem codeword_decided_ofFin (n : Fin 16) :
    codeword decided (BitVec.ofFin n) =
      (#v[0x00#7, 0x31#7, 0x72#7, 0x43#7, 0x54#7, 0x65#7, 0x26#7, 0x17#7,
          0x68#7, 0x59#7, 0x1A#7, 0x2B#7, 0x3C#7, 0x0D#7, 0x4E#7, 0x7F#7] : Vector Word7 16)[n] := by
  revert n; decide

/-- R86: the smallest weight, under every valid pair. -/
theorem three_le_weight_codeword (c : ValidCodec) {d : Data} (hd : d ≠ 0#4) :
    3 ≤ weight (codeword c d) := by
  refine three_le_weight_of_syndrome_eq_zero (syndrome_codeword c d) ?_
  rwa [Ne, codeword, (vecMat_xorAdditive c.codec.g).eq_zero_iff (codeword_injective c)]

/-- Settles O41: `exec` delivers the codeword of the table, and a non-zero codeword, having zero syndrome, has
three 1s. -/
theorem encodeTable : Obligations.EncodeTable := by
  refine ⟨fun n s => ?_, fun d => three_le_weight_codeword decided⟩
  rw [exec_encode_seqOfWord, codeword_decided_ofFin]

end Sys2Proof.Machine
end

section
/-! SYNDROME and LOOKUP under every valid pair, and the table of SLE (spec/43_syndrome_lookup.md). -/

namespace Sys2Proof.Machine

/-- Settles O33: each lookup is a turn of the loop read backwards, and distinct columns leave one turn for a
pattern. -/
theorem mapFindsExactlyTheColumns : Obligations.MapFindsExactlyTheColumns := fun c s =>
  ⟨lookup_buildMap_eq_some c s, lookup_buildMap_eq_none c s⟩

/-- The codeword drops out of the syndrome. -/
theorem syndrome_codeword_xor (c : ValidCodec) (d : Data) (e : Word7) :
    syndrome c.codec.h (codeword c d ^^^ e) = syndrome c.codec.h e := by
  rw [syndrome_xor, syndrome_codeword, BitVec.zero_xor]

/-- R73, R92: two different columns add up to a third. Their sum is not zero, so it is a column, and it is
neither of the two because the other is not zero. -/
theorem exists_third_column (c : ValidCodec) {a b : Position} (hab : a ≠ b) :
    ∃ q : Position, q ≠ a ∧ q ≠ b ∧ column c.codec.h q = column c.codec.h a ^^^ column c.codec.h b := by
  have hsum : column c.codec.h a ^^^ column c.codec.h b ≠ 0#3 := fun h =>
    hab (c.column_injective (BitVec.xor_eq_zero_iff.mp h))
  obtain ⟨q, hq⟩ := exists_column_eq c hsum
  refine ⟨q, ?_, ?_, hq⟩
  · rintro rfl
    exact c.column_ne_zero b ((BitVec.xor_right_inj _).mp (hq.symm.trans BitVec.xor_zero.symm))
  · rintro rfl
    exact c.column_ne_zero a ((BitVec.xor_left_inj _).mp (hq.symm.trans BitVec.zero_xor.symm))

/-- Settles O42: the syndrome is additive and zero on codewords, so each flipped bit adds its column. -/
theorem syndromeIgnoresTheCodeword : Obligations.SyndromeIgnoresTheCodeword := by
  intro c d
  refine ⟨syndrome_codeword_xor c d, syndrome_codeword c d, syndrome_codeword_xor_unitAt c d,
    fun a b hab => ⟨?_, exists_third_column c hab⟩⟩
  rw [syndrome_xor_unitAt, syndrome_codeword_xor_unitAt]

/-- Settles O28: the table is MAP with the fill 7, and its eight rows are read off. -/
theorem sleAnswersAsMap : Obligations.SleAnswersAsMap := by
  intro s
  refine ⟨fun p hp => ?_, fun hnone => ?_, ?_⟩
  · rw [sleUnit_eq, hp]
    exact ⟨rfl, toNat_posCode_errorCorrected p⟩
  · rw [sleUnit_eq, hnone]
    exact ⟨rfl, rfl⟩
  · revert s
    decide

end Sys2Proof.Machine
end

section
/-! The steps of DECODE, for any H and any map (spec/44_decode.md R102 to R105, R110), and the unit DEC
(R112). -/

namespace Sys2Proof.Machine

/-! ## The output (R105) -/

@[simp] theorem getElem_dataOf (w : Word7) (i : Nat) (h : i < 4) : (dataOf w)[i] = w[i] := by
  have hi : i < 7 := h.trans (by decide)
  simp [dataOf, BitVec.getLsbD_eq_getElem hi]

/-- R113: the data are the first four bits, but for the one that the status reports. -/
theorem getElem_dataOf_correct (st : Status) (v : Word7) (i : Fin 4) :
    (dataOf (correct st v))[i] =
      (v[i.val] ^^ decide (st = .errorCorrected (i.castLE (by decide)))) := by
  cases st with
  | noError => simp [correct]
  | errorCorrected p => by_cases hp : i.val = p.val <;> simp [correct, Fin.ext_iff, hp, eq_comm]
  | uncorrectableError => simp [correct]

/-- R110: a flip in a parity position does not reach the output. -/
theorem dataOf_flipAt_of_parity (v : Word7) {p : Position} (hp : 4 ≤ p.val) :
    dataOf (flipAt v p) = dataOf v :=
  word_ext fun i => by
    have hi : i.val ≠ p.val := by omega
    simp [hi]

/-- R110: a flip in a data position changes that bit of the output alone. -/
theorem getElem_dataOf_flipAt_eq_iff (v : Word7) (p : Position) (i : Fin 4) :
    (dataOf (flipAt v p))[i] = v[i.val] ↔ i.val ≠ p.val := by
  by_cases hi : i.val = p.val <;> simp [hi]

/-! ## The three branches -/

section
variable {h : BitMatrix 3 7} {m : SynMap} {v : Word7}

/-- R102: the zero test does not consult the map. -/
theorem decodeCore_of_syndrome_eq_zero (hs : syndrome h v = 0#3) :
    decodeCore h m v = .decOk (dataOf v) .noError := by
  simp [decodeCore, statusOf, hs, correct]

/-- R103: the position that the map finds is flipped. -/
theorem decodeCore_of_lookup_eq_some {p : Position} (hs : syndrome h v ≠ 0#3)
    (hp : lookup m (syndrome h v) = some p) :
    decodeCore h m v = .decOk (dataOf (flipAt v p)) (.errorCorrected p) := by
  simp [decodeCore, statusOf, hs, hp, correct]

/-- R103: the defensive branch. -/
theorem decodeCore_of_lookup_eq_none (hs : syndrome h v ≠ 0#3)
    (hnone : lookup m (syndrome h v) = none) :
    decodeCore h m v = .decOk (dataOf v) .uncorrectableError := by
  simp [decodeCore, statusOf, hs, hnone, correct]

end

/-- Settles O43: with the position p found, the working copy is the received word with bit p flipped, and
with none found it is the received word. -/
theorem correctFlipsExactlyTheFoundBit : Obligations.CorrectFlipsExactlyTheFoundBit := by
  intro h m v hs
  refine ⟨fun p hp => ⟨flipAt v p, ?_, fun j hj => ?_, decodeCore_of_lookup_eq_some hs hp⟩,
    decodeCore_of_lookup_eq_none hs⟩
  · simp
  · simp [Fin.val_ne_of_ne hj]

/-- Settles O50: the output of CORRECT by its status, whichever the map gives. -/
theorem parityCorrectionLeavesTheData : Obligations.ParityCorrectionLeavesTheData := by
  intro h m v
  refine ⟨_, _, rfl, fun p hst hp => ?_, fun p hst _ i => ?_, fun hst => ?_⟩
  · rw [hst]
    exact dataOf_flipAt_of_parity v hp
  · rw [hst]
    exact getElem_dataOf_flipAt_eq_iff v p i
  · rcases hst with hst | hst <;> rw [hst, correct, dataOf]

/-- Settles O27: the lemmas about DEC, net by net, with the XOR equations of the syndrome. -/
theorem decUnitRestatesTheSteps : Obligations.DecUnitRestatesTheSteps := by
  intro v
  have hzero : (decUnit v).zero = true ↔ syndrome decidedH v = 0#3 := by
    rw [decUnit_zero, decide_eq_true_iff]
  have hd := decUnit_decD v
  rw [decUnit_decW] at hd
  exact ⟨bitsOf_synNet v, decUnit_sle v, hzero, decUnit_decW v, hd, decUnit_decStatus v,
    decUnit_decPos v⟩

end Sys2Proof.Machine
end

section
/-! DECODE under every valid pair (spec/44_decode.md R107, R111): the answer is the data of the one codeword
within distance 1 of the received word. -/

namespace Sys2Proof.Machine

/-- R107 item 1. -/
theorem serve_decode_codeword (c : ValidCodec) (d : Data) :
    serve c (.decode (seqOfWord (codeword c d))) = .decOk d .noError := by
  rw [serve_decode_seqOfWord, decodeCore_of_syndrome_eq_zero (syndrome_codeword c d), dataOf_codeword]

/-- R107 item 2, the flip written as the sum with a unit word. -/
theorem serve_decode_codeword_xor_unitAt (c : ValidCodec) (d : Data) (p : Position) :
    serve c (.decode (seqOfWord (codeword c d ^^^ unitAt p))) = .decOk d (.errorCorrected p) := by
  rw [← flipAt_eq_xor]
  exact singleErrorIsCorrected c d p

/-- Settles O44: ENCODE answers with a codeword, whose syndrome is zero and whose first four bits are the
data. -/
theorem roundTrip : Obligations.RoundTrip := by
  intro c v w h
  obtain ⟨d, rfl, rfl⟩ := serve_encode_eq_encOk h
  exact ⟨d, rfl, serve_decode_codeword c d⟩

/-- Settles O46: the sum of the columns a and b is column q of a third position, so the received word is also
a codeword with bit q flipped, which is corrected to its data. These are not d: an error pattern with bits a
and b alone is not one with bit q. -/
theorem doubleErrorIsMiscorrected : Obligations.DoubleErrorIsMiscorrected := by
  intro c d a b hab
  obtain ⟨q, hqa, hqb, hq⟩ := exists_third_column c hab
  have hsyn : syndrome c.codec.h (codeword c d ^^^ unitAt a ^^^ unitAt b) = column c.codec.h q := by
    rw [syndrome_xor_unitAt, syndrome_codeword_xor_unitAt, hq]
  obtain ⟨d', hword⟩ := exists_codeword_xor_unitAt hsyn
  have hd : d' ≠ d := by
    rintro rfl
    rw [BitVec.xor_assoc, BitVec.xor_right_inj] at hword
    have hbit := congrArg (fun e : Word7 => e[q]) hword
    simp [Fin.val_ne_of_ne hqa, Fin.val_ne_of_ne hqb] at hbit
  refine ⟨q, d', hqa, hqb, hd, hq, ?_⟩
  rw [flipAt_eq_xor, flipAt_eq_xor, hword, serve_decode_codeword_xor_unitAt]

/-! ## Error patterns of any weight -/

theorem weight_zero {n : Nat} : weight 0#n = 0 := by simp [weight]

theorem weight_unitAt {n : Nat} (p : Fin n) : weight (unitAt p) = 1 := by
  have hp : (unitAt p)[p] = true := by simp
  rw [← weight_xor_unitAt hp, BitVec.xor_self, weight_zero]

/-- Settles O47: the received word is a codeword or a codeword with one bit flipped, and its data are the
answer. Had they been d, the error pattern would have had at most one 1. -/
theorem twoOrMoreErrorsGiveWrongData : Obligations.TwoOrMoreErrorsGiveWrongData := by
  intro c d e he
  obtain ⟨-, -, -, -, hcover⟩ := consequencesOfValidity c
  obtain ⟨d', hword⟩ | ⟨d', q, hword, -⟩ := hcover (codeword c d ^^^ e)
  · refine ⟨d', .noError, by rw [hword, serve_decode_codeword], ?_, Or.inl rfl⟩
    rintro rfl
    have hzero : e = 0#7 := (BitVec.xor_right_inj _).mp (hword.trans BitVec.xor_zero.symm)
    rw [hzero, weight_zero] at he
    omega
  · refine ⟨d', .errorCorrected q, by rw [hword, serve_decode_codeword_xor_unitAt], ?_,
      Or.inr ⟨q, rfl⟩⟩
    rintro rfl
    rw [(BitVec.xor_right_inj _).mp hword, weight_unitAt] at he
    omega

end Sys2Proof.Machine
end

section
/-! DECODE with the decided pair (spec/44_decode.md R100, R113). -/

namespace Sys2Proof.Machine

/-! ## The closed form -/

/-- `exec` of DECODE on seven bits. -/
theorem exec_decode_seqOfWord (v : Word7) (s : State) :
    exec (.decode (seqOfWord v)) s =
      .next { s with responses := s.responses ++ [decodeCore decidedH (buildMap decided) v] } := by
  rw [exec_eq_deliver, deliver_eq, serve_decode_seqOfWord]
  rfl

/-- Settles O4: the syndrome is the three XOR equations of DEC, the status is read off the table for the
eight values of the three bits, and CORRECT changes no data bit but the reported one. -/
theorem decodeClosedForm : Obligations.DecodeClosedForm := by
  intro v s
  refine ⟨_, _, exec_decode_seqOfWord v s, ?_, getElem_dataOf_correct _ v⟩
  have hsyn : syndrome decidedH v = bitsOf 3 ![v[0] ^^ v[1] ^^ v[2] ^^ v[4],
      v[0] ^^ v[1] ^^ v[3] ^^ v[5], v[1] ^^ v[2] ^^ v[3] ^^ v[6]] := (bitsOf_synNet v).symm
  rw [hsyn]
  generalize (v[0] ^^ v[1] ^^ v[2] ^^ v[4]) = x, (v[0] ^^ v[1] ^^ v[3] ^^ v[5]) = y,
    (v[1] ^^ v[2] ^^ v[3] ^^ v[6]) = z
  revert x y z
  decide

/-! ## The four steps over the integers -/

theorem getD_seqOfWord_eq_toInt {n : Nat} (w : BitVec n) (i : Fin n) :
    (seqOfWord w).getD i 0 = w[i].toInt := by
  rw [getD_seqOfWord, symOfBit_eq_toInt]

theorem toInt_not (b : Bit) : (!b).toInt = 1 - b.toInt := by cases b <;> rfl

theorem toInt_eq_zero_iff (b : Bit) : b.toInt = 0 ↔ b = false := by cases b <;> decide

theorem forall_toInt_eq_zero_iff {n : Nat} (w : BitVec n) :
    (∀ i : Fin n, w[i].toInt = 0) ↔ w = 0#n := by
  constructor
  · intro h
    exact word_ext fun i => by simpa using (toInt_eq_zero_iff _).mp (h i)
  · rintro rfl i
    simp

/-- R101 on the bits of a received word: the sum of products of each row of H. -/
theorem toInt_getElem_syndrome (h : BitMatrix 3 7) (v : Word7) (i : Fin 3) :
    (syndrome h v)[i].toInt =
      ((seqOfWord v).getD 0 0 * h[i][0].toInt + (seqOfWord v).getD 1 0 * h[i][1].toInt +
        (seqOfWord v).getD 2 0 * h[i][2].toInt + (seqOfWord v).getD 3 0 * h[i][3].toInt +
        (seqOfWord v).getD 4 0 * h[i][4].toInt + (seqOfWord v).getD 5 0 * h[i][5].toInt +
        (seqOfWord v).getD 6 0 * h[i][6].toInt) % 2 := by
  have hsym := getD_seqOfWord_eq_toInt v
  have hdot : (syndrome h v)[i] = dot2 v h[i] :=
    (getElem_matVec h v i i.isLt).trans (dot2_comm _ _)
  rw [hdot, toInt_dot2, Fin.sum_univ_seven, ← hsym 0, ← hsym 1, ← hsym 2, ← hsym 3, ← hsym 4,
    ← hsym 5, ← hsym 6]
  simp

theorem toInt_getElem_dataOf (v : Word7) (i : Fin 4) :
    (dataOf v)[i].toInt = (seqOfWord v).getD i 0 := by
  have hsym : (seqOfWord v).getD i 0 = v[i.val].toInt :=
    getD_seqOfWord_eq_toInt v (i.castLE (by decide))
  rw [hsym, Fin.getElem_fin, getElem_dataOf]

theorem toInt_getElem_dataOf_flipAt (v : Word7) (p : Position) (i : Fin 4) :
    (dataOf (flipAt v p))[i].toInt =
      if i.val = p.val then 1 - (seqOfWord v).getD i 0 else (seqOfWord v).getD i 0 := by
  rw [← toInt_getElem_dataOf]
  by_cases hi : i.val = p.val
  · simp [hi, toInt_not]
  · simp [hi]

/-- Settles O2: `exec` delivers `serve decided`, whose two checks come in the order of R100. A checked operand
is the sequence of a word, whose syndrome is zero or a column of H. -/
theorem decodeFollowsTheFourSteps : Obligations.DecodeFollowsTheFourSteps := by
  intro v s
  refine ⟨serve decided (.decode v), by rw [exec_eq_deliver, deliver_eq],
    serve_of_length_ne (i := .decode v), fun hl ⟨x, hx, h0, h1⟩ => ?_, fun hl hb => ?_⟩
  · exact serve_of_not_bit (i := .decode v) hl fun hb => (hb x hx).elim h0 h1
  · obtain ⟨w, rfl⟩ : ∃ w : Word7, v = seqOfWord w := ⟨_, (seqOfWord_wordOfSeq hl hb).symm⟩
    refine ⟨fun i => (syndrome decidedH w)[i].toInt, toInt_getElem_syndrome decidedH w, ?_⟩
    rw [serve_decode_seqOfWord, forall_toInt_eq_zero_iff]
    by_cases hs : syndrome decidedH w = 0#3
    · exact ⟨_, _, decodeCore_of_syndrome_eq_zero hs, Or.inl ⟨hs, rfl, toInt_getElem_dataOf w⟩⟩
    · obtain ⟨p, hp⟩ := exists_lookup_buildMap_eq_some decided hs
      have hcol : column decidedH p = syndrome decidedH w :=
        (lookup_buildMap_eq_some decided _ p).mp hp
      have hsyn (i : Fin 3) : (syndrome decidedH w)[i].toInt = decidedH[i][p].toInt := by
        rw [← hcol]
        exact congrArg Bool.toInt (getElem_column decidedH p i i.isLt)
      exact ⟨_, _, decodeCore_of_lookup_eq_some hs hp,
        Or.inr (Or.inl ⟨hs, p, hsyn, rfl, toInt_getElem_dataOf_flipAt w p⟩)⟩

end Sys2Proof.Machine
end

section
/-! The two errors of `exec` (spec/60_exceptions.md R121, R122, R126): an operand of the wrong length, and one
of the right length with a symbol that is no bit. -/

namespace Sys2Proof.Machine

variable {i : Instr}

theorem exec_of_length_ne (h : i.operand.length ≠ i.op.arity) (s : State) :
    exec i s = .next { s with responses := s.responses ++ [.err .invalidLength] } := by
  rw [exec_eq_deliver, serve_of_length_ne h, deliver_eq]

theorem exec_of_not_bit (hl : i.operand.length = i.op.arity) (hb : ¬ ∀ x ∈ i.operand, IsBit x) (s : State) :
    exec i s = .next { s with responses := s.responses ++ [.err .invalidBit] } := by
  rw [exec_eq_deliver, serve_of_not_bit hl hb, deliver_eq]

/-- Settles O5: `exec` delivers `serve decided i`, and `serve` looks at no symbol of an operand of the wrong
length. -/
theorem wrongLengthIsInvalidLength : Obligations.WrongLengthIsInvalidLength :=
  fun _ s hl => exec_of_length_ne hl s

/-- Settles O6: the symbol `x` fails the second check, which an operand of the right length reaches. -/
theorem nonBitSymbolIsInvalidBit : Obligations.NonBitSymbolIsInvalidBit := by
  intro i s x hl hx h0 h1
  have hnot : ¬ ∀ y ∈ i.operand, IsBit y := fun hb => (hb x hx).elim h0 h1
  exact exec_of_not_bit hl hnot s

/-- Settles O7: the length is checked first, so the wrong length alone fixes the answer and the symbol `x` is
not looked at. -/
theorem lengthErrorComesFirst : Obligations.LengthErrorComesFirst :=
  fun _ s _ hl _ _ _ => ⟨_, exec_of_length_ne hl s, rfl, rfl⟩

end Sys2Proof.Machine
end

section
/-! The step and the run (spec/70_reset_and_hazards.md R144, R148, R149): a step serves the request at the head
of the queue, and a run serves the requests in order. -/

namespace Sys2Proof.Machine

/-! ## One step -/

/-- The step with a request pending, of either layer, in full: one request gone, its response appended. -/
theorem step_serves {s : State} {sub : Submission} {rest : List Submission} (h : s.pending = sub :: rest) :
    step s = .next { pending := rest
                     responses := s.responses ++ [serve decided (requestOf sub)] } := by
  rw [step_cons h, exec_eq_deliver, deliver_eq]

/-! ## n steps -/

theorem run_succ_of_step_next {M : Host.Core} {s t : M.State} (h : M.step s = .next t) (n : Nat) :
    M.run (n + 1) s = M.run n t := by
  rw [Host.Core.run, h]

theorem core_run_zero (s : State) : core.run 0 s = .next s := rfl

theorem core_run_succ_of_step_next {s t : State} (h : step s = .next t) (n : Nat) :
    core.run (n + 1) s = core.run n t :=
  run_succ_of_step_next (M := core) h n

/-- Settles O14, by induction on the number of steps from every state: the first step serves the head of the
queue, and the remaining steps are a run from the state it leaves. -/
theorem runDeliversTheResponsesInOrder : Obligations.RunDeliversTheResponsesInOrder := by
  intro s n
  induction n generalizing s with
  | zero =>
    intro _
    simp [core_run_zero]
  | succ n ih =>
    intro hn
    cases hp : s.pending with
    | nil => simp [hp] at hn
    | cons sub rest =>
      have hrest : n ≤ rest.length := by simpa [hp] using hn
      rw [core_run_succ_of_step_next (step_serves hp), ih _ hrest]
      simp

/-! ## The head of the queue -/

/-- Settles O13: either the queue is empty, or `serve` gives its head the one response that is appended. -/
theorem everyRequestGetsExactlyOneResponse : Obligations.EveryRequestGetsExactlyOneResponse := by
  intro s
  cases hp : s.pending with
  | nil => exact Or.inl ⟨rfl, step_nil hp⟩
  | cons sub rest => exact Or.inr ⟨sub, rest, _, rfl, step_serves hp⟩

/-- Settles O11: the step is `exec` of the submission at the head, which stands for the decoded word or for the
call itself. -/
theorem stepServesTheNextRequest : Obligations.StepServesTheNextRequest :=
  fun _ _ => ⟨fun _ hp => step_cons hp, fun _ hp => step_cons hp⟩

/-! ## Placing a word -/

theorem withFetchWord_of_reqOfNat {nbits w : Nat} {q : ReqWord} (h : reqOfNat nbits w = .ok q) (s : State) :
    s.withFetchWord nbits w = { s with pending := .word q :: s.pending } := by
  rw [State.withFetchWord, h]

/-- Settles O12: the number holds a request word, which is then the head of the queue, with the old queue as
its tail. -/
theorem placedWordIsServedNext : Obligations.PlacedWordIsServedNext := by
  intro s nbits w i h
  obtain ⟨q, hq, rfl⟩ := decodeTableWord_eq_some h
  rw [withFetchWord_of_reqOfNat hq s]
  exact ⟨step_cons (s := { s with pending := .word q :: s.pending }) rfl, rfl, rfl⟩

end Sys2Proof.Machine
end

section
/-! Reading back the textual syntax (spec/30_encoding.md R54): the reader takes one numeral at a time, and the
comma or the bracket after it adds the symbol that it wrote. -/

namespace Sys2Proof.Machine

variable {rest : List Char} {neg : Bool} {num : Option Nat} {acc : SymSeq}

/-! ## One character -/

theorem readSymbols_digit {ch : Char} (h : ch.isDigit = true) :
    readSymbols (ch :: rest) neg num acc =
      readSymbols rest neg (some (num.getD 0 * 10 + (ch.toNat - 48))) acc := by
  rw [readSymbols, if_pos h]

theorem readSymbols_minus :
    readSymbols ('-' :: rest) false none acc = readSymbols rest true none acc := rfl

theorem readSymbols_comma {n : Nat} :
    readSymbols (',' :: rest) neg (some n) acc =
      readSymbols rest false none (acc ++ [if neg then -(n : Int) else n]) := rfl

theorem readSymbols_bracket {n : Nat} :
    readSymbols [']'] neg (some n) acc = some (acc ++ [if neg then -(n : Int) else n]) := rfl

/-! ## One numeral -/

/-- Digits carry on the number read before them. -/
theorem readSymbols_digits {cs : List Char} (h : ∀ ch ∈ cs, ch.isDigit = true) (n : Nat) :
    readSymbols (cs ++ rest) neg (some n) acc =
      readSymbols rest neg (some (Nat.ofDigitChars 10 cs n)) acc := by
  induction cs generalizing n with
  | nil => rfl
  | cons ch cs ih =>
    obtain ⟨hch, hcs⟩ := List.forall_mem_cons.mp h
    rw [List.cons_append, readSymbols_digit hch, ih hcs, Nat.ofDigitChars_cons, Nat.mul_comm 10]
    rfl

/-- The first digit starts a number as if 0 had been read. -/
theorem readSymbols_none_eq_zero {ch : Char} (h : ch.isDigit = true) :
    readSymbols (ch :: rest) neg none acc = readSymbols (ch :: rest) neg (some 0) acc := by
  rw [readSymbols_digit h, readSymbols_digit h]; rfl

theorem readSymbols_toDigits (n : Nat) :
    readSymbols (Nat.toDigits 10 n ++ rest) neg none acc = readSymbols rest neg (some n) acc := by
  have hdigits : ∀ ch ∈ Nat.toDigits 10 n, ch.isDigit = true := fun _ =>
    Nat.isDigit_of_mem_toDigits (by decide) (by decide)
  have hzero : readSymbols (Nat.toDigits 10 n ++ rest) neg none acc =
      readSymbols (Nat.toDigits 10 n ++ rest) neg (some 0) acc := by
    obtain ⟨ch, cs, hcs⟩ := List.exists_cons_of_ne_nil (Nat.toDigits_ne_nil (n := n) (b := 10))
    rw [hcs] at hdigits ⊢
    exact readSymbols_none_eq_zero (hdigits ch List.mem_cons_self)
  rw [hzero, readSymbols_digits hdigits, Nat.ofDigitChars_ten_toDigits]

/-- The numeral of an integer leaves the reader with its sign and its absolute value. -/
theorem readSymbols_symText (x : Sym) :
    readSymbols (symText x ++ rest) false none acc =
      readSymbols rest (decide (x < 0)) (some x.natAbs) acc := by
  cases x with
  | ofNat n => exact readSymbols_toDigits n
  | negSucc n =>
    rw [decide_eq_true (Int.negSucc_lt_zero n)]
    exact readSymbols_minus.trans (readSymbols_toDigits (n + 1))

theorem ite_neg_natAbs (x : Sym) : (if decide (x < 0) then -(x.natAbs : Int) else x.natAbs) = x := by
  cases x with
  | ofNat n => rfl
  | negSucc n =>
    rw [decide_eq_true (Int.negSucc_lt_zero n)]
    rfl

/-! ## A sequence -/

theorem readSymbols_intercalate (x : Sym) (v : SymSeq) :
    readSymbols (List.intercalate [','] ((x :: v).map symText) ++ [']']) false none acc =
      some (acc ++ x :: v) := by
  induction v generalizing x acc with
  | nil =>
    rw [List.map_singleton, List.intercalate_singleton, readSymbols_symText, readSymbols_bracket,
      ite_neg_natAbs]
  | cons y v ih =>
    rw [List.map_cons, List.map_cons, List.intercalate_cons_cons, ← List.map_cons, List.append_assoc,
      List.append_assoc, readSymbols_symText, List.singleton_append, readSymbols_comma, ite_neg_natAbs, ih,
      List.append_assoc, List.singleton_append]

theorem exists_seqText_eq_cons (v : SymSeq) :
    ∃ rest, seqText v = '[' :: rest ∧ readSymbols rest false none [] = some v := by
  refine ⟨List.intercalate [','] (v.map symText) ++ [']'], rfl, ?_⟩
  cases v with
  | nil => rfl
  | cons x v => exact readSymbols_intercalate x v

/-! ## A request -/

theorem requestText_encode (v : SymSeq) : requestText (.encode v) = "ENCODE ".toList ++ seqText v := rfl

theorem requestText_decode (v : SymSeq) : requestText (.decode v) = "DECODE ".toList ++ seqText v := rfl

/-- Settles O23: after the name of the operation the line is the sequence of the operand, which is read back
symbol by symbol. -/
theorem requestTextRoundTrip : Obligations.RequestTextRoundTrip := by
  intro i
  cases i with
  | encode v =>
    obtain ⟨rest, hv, hread⟩ := exists_seqText_eq_cons v
    rw [requestText_encode, hv, readRequest_encode, hread, Option.map_some]
  | decode v =>
    obtain ⟨rest, hv, hread⟩ := exists_seqText_eq_cons v
    rw [requestText_decode, hv, readRequest_decode, hread, Option.map_some]

end Sys2Proof.Machine
end

section
/-! The state after reset (spec/70_reset_and_hazards.md R140): the base case of the invariant `State.Safe`. -/

namespace Sys2Proof.Machine

theorem safe_of_responses_nil {s : State} (h : s.responses = []) : s.Safe := by
  intro r hr
  rw [h] at hr
  exact absurd hr List.not_mem_nil

/-- Settles O16: with no response delivered there is none to check, and with no request pending the step is the
end of the run. -/
theorem resetIsSafeAndEmpty : Obligations.ResetIsSafeAndEmpty :=
  ⟨safe_of_responses_nil State.reset_responses, State.reset_pending, State.reset_responses,
    step_nil State.reset_pending⟩

end Sys2Proof.Machine
end
